-- ==== Sys2Proof/Word.lean ====
section
/-! DEFINITION. The bit-vector types of the block: operation words (30_encoding R85), colour words and
their packed colour (10_state R31, 30_encoding R80), pulse symbols (10_state R32, 30_encoding R81). -/

namespace Sys2Proof

/-- One 64-bit operation word, `OP[63:56] A[55:32] B[31:0]` (R85). -/
abbrev OpWord := BitVec 64

/-- One 32-bit word of the colour buffer (R31). -/
abbrev ColorWord := BitVec 32

/-- The 24 packed colour bits: green [23:16], blue [15:8], red [7:0] (R80). -/
abbrev ColorBits := BitVec 24

/-- A symbol of `SYM_W = 16` bits: the number of ticks the wire is high in one bit period (R81). -/
abbrev Symbol := BitVec 16

end Sys2Proof
end

