-- ==== Sys2Proof/Syntax.lean ====
section
/-! DEFINITION. The 13 operations of 30_encoding R86, one constructor per row of opcode_table.json, with their
operands (R87). An operand is held at the width of its field, so no term spells an operand the word cannot. -/

namespace Sys2Proof

/-- The operations of the block (R3, R86). -/
inductive Instr where
  /-- RESET, `OP = 0x01` (R230). -/
  | reset
  /-- START, `OP = 0x02` (R231). -/
  | start
  /-- WRCOLOR i, w, `OP = 0x03` (R232). -/
  | wrcolor (i : BitVec 24) (w : ColorWord)
  /-- RDCOLOR i, `OP = 0x04` (R233). -/
  | rdcolor (i : BitVec 24)
  /-- RDSNAP, `OP = 0x05` (R234). -/
  | rdsnap
  /-- CAPTICK, `OP = 0x10` (R110). -/
  | captick
  /-- EDGE, `OP = 0x11` (R111). -/
  | edge
  /-- TEDGE, `OP = 0x12` (R130). -/
  | tedge
  /-- TOVF, `OP = 0x13` (R131). -/
  | tovf
  /-- PERIOD, `OP = 0x20` (R200). -/
  | period
  /-- EHT, `OP = 0x21` (R170). -/
  | eht
  /-- ETC, `OP = 0x22` (R171). -/
  | etc
  /-- ESYM, `OP = 0x23` (R172). -/
  | esym
  deriving DecidableEq, Repr

end Sys2Proof
end

