-- ==== Sys2Proof/Decode.lean ====
section
/-! DEFINITION. The operation decoder and encoder of 30_encoding R85 to R89, and the rows of opcode_table.json as
masks and matches. The decoder answers for every 64-bit word, and rejects by name (R88). -/

namespace Sys2Proof

/-- The two verdicts on a word that spells no operation (R88). -/
inductive Reject where
  /-- The `OP` value is not one of R86. -/
  | reservedOp
  /-- A field that the `OP` does not use is nonzero. -/
  | reservedField
  deriving DecidableEq, Repr

/-- `OP`, bits [63:56] (R85). -/
def opField (w : OpWord) : BitVec 8 := w.extractLsb' 56 8

/-- `A`, bits [55:32] (R85). -/
def aField (w : OpWord) : BitVec 24 := w.extractLsb' 32 24

/-- `B`, bits [31:0] (R85). -/
def bField (w : OpWord) : BitVec 32 := w.extractLsb' 0 32

/-- An operation without operands: both operand fields must be zero (R86, R88). -/
def noOperands (w : OpWord) (i : Instr) : Except Reject Instr :=
  if aField w = 0 ∧ bField w = 0 then .ok i else .error .reservedField

/-- An operation whose only operand is `A`: `B` must be zero (R86, R88). -/
def onlyA (w : OpWord) (i : Instr) : Except Reject Instr :=
  if bField w = 0 then .ok i else .error .reservedField

/-- The decoder: it reads `OP` and then checks the operand fields (R85 to R89). -/
def decode (w : OpWord) : Except Reject Instr :=
  match (opField w).toNat with
  | 0x01 => noOperands w .reset
  | 0x02 => noOperands w .start
  | 0x03 => .ok (.wrcolor (aField w) (bField w))
  | 0x04 => onlyA w (.rdcolor (aField w))
  | 0x05 => noOperands w .rdsnap
  | 0x10 => noOperands w .captick
  | 0x11 => noOperands w .edge
  | 0x12 => noOperands w .tedge
  | 0x13 => noOperands w .tovf
  | 0x20 => noOperands w .period
  | 0x21 => noOperands w .eht
  | 0x22 => noOperands w .etc
  | 0x23 => noOperands w .esym
  | _ => .error .reservedOp

/-- The operation code of each operation (R86). -/
def opcodeOf : Instr → BitVec 8
  | .reset => 0x01
  | .start => 0x02
  | .wrcolor _ _ => 0x03
  | .rdcolor _ => 0x04
  | .rdsnap => 0x05
  | .captick => 0x10
  | .edge => 0x11
  | .tedge => 0x12
  | .tovf => 0x13
  | .period => 0x20
  | .eht => 0x21
  | .etc => 0x22
  | .esym => 0x23

/-- The contents of field `A` (R86, R87): the index of WRCOLOR and RDCOLOR, else zero. -/
def operandA : Instr → BitVec 24
  | .wrcolor i _ => i
  | .rdcolor i => i
  | .reset | .start | .rdsnap | .captick | .edge | .tedge | .tovf | .period | .eht | .etc | .esym => 0

/-- The contents of field `B` (R86, R87): the word of WRCOLOR, else zero. -/
def operandB : Instr → BitVec 32
  | .wrcolor _ w => w
  | .rdcolor _ => 0
  | .reset | .start | .rdsnap | .captick | .edge | .tedge | .tovf | .period | .eht | .etc | .esym => 0

/-- The encoder: the three fields side by side (R85). -/
def encode (i : Instr) : OpWord := opcodeOf i ++ operandA i ++ operandB i

/-- One row of opcode_table.json: a word spells the row's operation iff `word & mask = match` (R89). -/
structure TableRow where
  mask : OpWord
  bits : OpWord
  deriving DecidableEq, Repr

/-- The mask of an operation that uses neither operand field. -/
def TableRow.fixed (bits : OpWord) : TableRow := ⟨0xFFFFFFFFFFFFFFFF, bits⟩

/-- The row of opcode_table.json that each operation belongs to. -/
def tableRow : Instr → TableRow
  | .reset => .fixed 0x0100000000000000
  | .start => .fixed 0x0200000000000000
  | .wrcolor _ _ => ⟨0xFF00000000000000, 0x0300000000000000⟩
  | .rdcolor _ => ⟨0xFF000000FFFFFFFF, 0x0400000000000000⟩
  | .rdsnap => .fixed 0x0500000000000000
  | .captick => .fixed 0x1000000000000000
  | .edge => .fixed 0x1100000000000000
  | .tedge => .fixed 0x1200000000000000
  | .tovf => .fixed 0x1300000000000000
  | .period => .fixed 0x2000000000000000
  | .eht => .fixed 0x2100000000000000
  | .etc => .fixed 0x2200000000000000
  | .esym => .fixed 0x2300000000000000

/-- `word & mask = match` (R89). -/
def TableRow.matches (r : TableRow) (w : OpWord) : Bool := w &&& r.mask == r.bits

/-- The operation word that the host numbers as `nbits` bits of `w`, every bit above them zero. A word is one unit
(R85) and no space is byte-addressed (R61), so no byte order enters. -/
def tableWord (nbits w : Nat) : OpWord := BitVec.ofNat 64 (w % 2 ^ nbits)

/-- What the decoder reads from a word numbered as opcode_table.json numbers it; none where it refuses. -/
def decodeTableWord (nbits w : Nat) : Option Instr :=
  match decode (tableWord nbits w) with
  | .ok i => some i
  | .error _ => none

end Sys2Proof
end

