-- ==== Sys2Proof/Config.lean ====
section
/-! DEFINITION. The configuration of 00_scope R8, which is fixed for the life of the block (R66) and which
every statement leaves free, and the free values of 44_host R230 (`draw32`, `drawSYM`). -/

namespace Sys2Proof

/-- The parameters of R8 that the source, the spec or an implementation fixes. `M` is the length of
`arc`, because M is "the number of arc-table entries". The constants of R8 that no configuration changes
(SCORE_MAX, CONF_FACTOR, FREQ_MAX, GAP_SYM) and its derived sizes stand in Machine/Operands.lean. -/
structure Config where
  /-- `ARC[0..M-1]`, the magnet arc table, read-only (R30). -/
  arc : List Nat
  /-- `L`, the interval history length. -/
  histLen : Nat
  /-- `CAP_PERIOD`, the capture counter's period in ticks. -/
  capPeriod : Nat
  /-- `SCORE_SCALE`, the scale of a relative deviation. -/
  scoreScale : Nat
  /-- `CONF_THRESHOLD`, above which the best candidate overrides. -/
  confThreshold : Nat
  /-- `FREQ_NUM`, numerator of the millihertz scale. -/
  freqNum : Nat
  /-- `FREQ_DEN`, denominator of the millihertz scale. -/
  freqDen : Nat
  /-- `N`, the number of LEDs and of colour words. -/
  ledCount : Nat
  /-- `LED_MAX`, the compile-time bound on `N`. -/
  ledMax : Nat
  /-- `G`, the reset gap in LED slots. -/
  gapSlots : Nat
  /-- `P`, the pulse generator's period in its clock ticks. -/
  periodTicks : Nat
  /-- `DUTY0`, the symbol of a logical 0. -/
  duty0 : Nat
  /-- `DUTY1`, the symbol of a logical 1. -/
  duty1 : Nat
  /-- `CAP_CLK_HZ`, the capture clock's rate; it matters to timing only (R8, R321), so nothing reads it. -/
  capClkHz : Nat
  /-- `PG_CLK_HZ`, the pulse generator clock's rate; it matters to timing only (R8, R321), so nothing reads it. -/
  pgClkHz : Nat
  deriving DecidableEq, Repr

/-- `M`, the magnet count (R8). -/
def Config.magnets (c : Config) : Nat := c.arc.length

/-- The configuration State.reset carries: CFG-5 of 95_test_vectors section 0, with the open parameters it
leaves symbolic chosen near the source's ratios (DESIGN CHOICE, unsafe for statements about State.reset
alone; log entry 2). -/
def Config.reference : Config where
  arc := [69340993, 61923605, 64606495, 65695792, 66113112]
  histLen := 5
  capPeriod := 65536
  scoreScale := 1000
  confThreshold := 150
  freqNum := 1
  freqDen := 1
  ledCount := 1
  ledMax := 16777216
  gapSlots := 3
  periodTicks := 100
  duty0 := 27
  duty1 := 62
  capClkHz := 65536
  pgClkHz := 80000000

/-- `draw32()` of R230: the word that `COLOR[i]` holds after the reset numbered `epoch` until it is written. A
free value, as the spec asks ("a claim must hold for every value"); log entry 5. -/
opaque Config.colorDraw (epoch i : Nat) : ColorWord

/-- `drawSYM()` of R230: the symbol that `TBUF[q]` holds after the reset numbered `epoch` until it is written. A
free value; log entry 5. -/
opaque Config.symDraw (epoch q : Nat) : Symbol

end Sys2Proof
end

