-- ==== Sys2Proof/Machine/State.lean ====
section
/-! DEFINITION. The state of the block (10_state R21 to R43), the four fields the model adds to it, the state after
RESET (R49), and the reasons a step can stop. Plain data throughout. -/

namespace Sys2Proof.Machine

/-- A storage space of `w`-bit elements: (index, element) pairs, indices strictly rising (20_memory R60). Its
unit is the element, the smallest that any operation moves (R61). An index that is not listed reads as the
draw of the last reset (log entries 5 and 6). -/
abbrev Memory (w : Nat) := List (Nat × BitVec w)

/-- The two banks of the transfer buffer (R32). -/
inductive Bank where
  | bank0
  | bank1
  deriving DecidableEq, Repr

/-- The level of the wire line (R203). -/
inductive Level where
  | low
  | high
  deriving DecidableEq, Repr

/-- A value returned to the host (R83, R84). -/
inductive Response where
  /-- RDCOLOR's 32-bit response (R84). -/
  | color (w : ColorWord)
  /-- RDSNAP's 64-bit response (R83). -/
  | snap (w : BitVec 64)
  deriving DecidableEq, Repr

/-- The operations that have a guard (R130, R131, R170 to R172, R200). -/
inductive Guarded where
  | tedge
  | tovf
  | period
  | eht
  | etc
  | esym
  deriving DecidableEq, Repr

/-- The state. The first four fields are the model's own; the others are the elements of R21 to R43 and R49. -/
structure State where
  /-- The configuration (R8). No operation writes it; it stands here because exec takes no other argument (log entry 1). -/
  cfg : Config
  /-- The operation words still to happen, in the order of the interleaving (R64, R85); log entry 3. -/
  trace : List OpWord
  /-- The responses returned to the host so far, oldest first (R83, R84); log entry 4. -/
  responses : List Response
  /-- How many RESET operations have happened: the number of the current draws (R230); log entry 5. -/
  draws : Nat
  /-- `CAP_CNT` (R21). -/
  capCnt : Nat
  /-- `CAP_LATCH` (R22). -/
  capLatch : Nat
  /-- `EDGE_PEND` (R23). -/
  edgePend : Bool
  /-- `OVF_PEND` (R24). -/
  ovfPend : Bool
  /-- `HIST[0..L-1]`, oldest first (R25). -/
  hist : List Nat
  /-- `PHASE` (R26). -/
  phase : Nat
  /-- `FREQ` (R27). -/
  freq : BitVec 32
  /-- `OVF` (R28). -/
  ovf : Bool
  /-- `COLOR[0..N-1]` (R31). -/
  color : Memory 32
  /-- `TBUF[0..TBUF_SYMS-1]` (R32). -/
  tbuf : Memory 16
  /-- `ENC_BUSY` (R33). -/
  encBusy : Bool
  /-- `ENC_BANK` (R34). -/
  encBank : Bank
  /-- `ENC_K` (R35). -/
  encK : Nat
  /-- `ENC_CURSOR` (R36). -/
  encCursor : Nat
  /-- `ENC_WORD` (R37). -/
  encWord : ColorBits
  /-- `RUN` (R38). -/
  run : Bool
  /-- `HT_EN` (R39). -/
  htEn : Bool
  /-- `TC_EN` (R39). -/
  tcEn : Bool
  /-- `HT_PEND` (R40). -/
  htPend : Bool
  /-- `TC_PEND` (R40). -/
  tcPend : Bool
  /-- `DMA_POS` (R41). -/
  dmaPos : Nat
  /-- The wire line's level at the step's boundary (R49, R203). -/
  line : Level
  /-- `WIRE`, the symbols emitted so far, oldest first (R43). -/
  wire : List Symbol
  deriving DecidableEq, Repr

/-- The reasons the machine stops with a fault. -/
inductive Fault where
  /-- `Fault(HostIndexRange)`: raised by WRCOLOR and RDCOLOR when the index is `>= N` (R232, R233, R266). Safe: the
  model stops, and the spec says that the faulted step changes no state. -/
  | hostIndexRange
  /-- The named operation's guard is false: it is not enabled and has no step (R11). Raised by TEDGE, TOVF, PERIOD,
  EHT, ETC and ESYM. Safe: no run of the block holds such a step. -/
  | notEnabled (op : Guarded)
  /-- The given trace of operations has ended. Raised by step alone. Safe: every run is a finite prefix (R269). -/
  | traceEnd
  deriving DecidableEq, Repr

/-- The reasons an input has no meaning (R268). -/
inductive Refusal where
  /-- An instruction not modelled yet, raised by exec's arms only. Safe: nothing is claimed of it. -/
  | notModelled (mnemonic : String)
  /-- `refuse(BadConfig)`: the configuration breaks R9. Raised by step. Safe: nothing is claimed of such a run. -/
  | badConfig
  /-- `refuse(ReservedOp)`: an unassigned `OP` (R88). Raised by step. Safe: nothing is claimed of such a run. -/
  | reservedOp
  /-- `refuse(ReservedField)`: a nonzero field that the `OP` does not use (R88). Raised by step. Safe: nothing is
  claimed of such a run. -/
  | reservedField
  deriving DecidableEq, Repr

/-- The block right after RESET under a configuration (R49): nothing of COLOR and TBUF is listed, so each element
reads as its draw. -/
def State.resetWith (c : Config) : State where
  cfg := c
  trace := []
  responses := []
  draws := 0
  capCnt := 0
  capLatch := 0
  edgePend := false
  ovfPend := false
  hist := List.replicate c.histLen 0
  phase := 0
  freq := 0
  ovf := true
  color := []
  tbuf := []
  encBusy := false
  encBank := .bank0
  encK := 0
  encCursor := 0
  encWord := 0
  run := false
  htEn := false
  tcEn := false
  htPend := false
  tcPend := false
  dmaPos := 0
  line := .low
  wire := []

/-- The machine right after reset, under the reference configuration (R49; log entry 2). -/
def State.reset : State := State.resetWith Config.reference

end Sys2Proof.Machine
end

