-- ==== Sys2Proof/Machine/Operands.lean ====
section
/-! DEFINITION. The constants and derived sizes of 00_scope R8, the positions the operations compute
(20_memory R62), and the conversion of a colour bit to a symbol (42_encoder R173). -/

namespace Sys2Proof.Machine

/-- `SCORE_MAX`, the saturation value of a deviation or score (R8). -/
def scoreMax : Nat := 2 ^ 32 - 1

/-- `CONF_FACTOR`, the confidence multiplier (R8). -/
def confFactor : Nat := 100

/-- `FREQ_MAX`, the frequency's saturation value and zero-duration sentinel (R8). -/
def freqMax : Nat := 2 ^ 32 - 1

/-- `GAP_SYM`, the reset gap's symbol (R8, R81). -/
def gapSym : Symbol := 0

/-- `SLOTS = N + G`, the LED slots of a frame (R8). -/
def slots (c : Config) : Nat := c.ledCount + c.gapSlots

/-- `B = ceil((N + G) / 2)`, the LED slots of a bank (R8). -/
def bankSlots (c : Config) : Nat := (slots c + 1) / 2

/-- `BANK_SYMS = 24 * B` (R8). -/
def bankSyms (c : Config) : Nat := 24 * bankSlots c

/-- `TBUF_SYMS = 2 * BANK_SYMS` (R8). -/
def tbufSyms (c : Config) : Nat := 2 * bankSyms c

/-- The number that `ENC_BANK` holds (R34). -/
def Bank.index : Bank → Nat
  | .bank0 => 0
  | .bank1 => 1

/-- `b * BANK_SYMS`, the first position of a bank in the transfer buffer (R32). -/
def bankBase (c : Config) (b : Bank) : Nat := b.index * bankSyms c

/-- `LIVE = DMA_POS div BANK_SYMS`, the bank being emitted (R42). -/
def live (c : Config) (pos : Nat) : Nat := pos / bankSyms c

/-- `ARC[i]` (R30). Every index an operation computes is below `M` (R62). -/
def arcAt (c : Config) (i : Nat) : Nat := c.arc.getD i 0

/-- `a(c, j) = (c - (L - 1 - j)) mod M`, the arc that sample `j` belongs to under candidate `cand` (R140); `mod` is
in `[0, M)` also for a negative number (R10). -/
def arcIndex (c : Config) (cand j : Nat) : Nat :=
  (((cand : Int) - ((c.histLen : Int) - 1 - (j : Int))) % (c.magnets : Int)).toNat

/-- "Tentatively advance Phase Index by 1 mod magnet_count" (R130 step 2). -/
def tentativePhase (c : Config) (phase : Nat) : Nat := (phase + 1) % c.magnets

/-- The symbol of one colour bit (R81). -/
def bitSym (c : Config) (b : Bool) : Symbol := BitVec.ofNat 16 (if b then c.duty1 else c.duty0)

/-- `SYMBOL(s, b, w)`: the symbol of bit `b` of slot `s` with latched colour `w` (R173). -/
def symbolOf (c : Config) (s b : Nat) (w : ColorBits) : Symbol :=
  if c.ledCount ≤ s then gapSym else bitSym c (w.getLsbD b)

/-- The waveform of one emitted symbol: high for `min(s, P)` ticks, then low for the rest of the `P` ticks (R203). -/
def waveform (c : Config) (sym : Symbol) : List Level :=
  List.replicate (min sym.toNat c.periodTicks) .high ++
    List.replicate (c.periodTicks - min sym.toNat c.periodTicks) .low

/-- The line's level when the period of an emitted symbol ends: the last level of its waveform (R203). -/
def levelAfter (c : Config) (sym : Symbol) : Level := if c.periodTicks ≤ sym.toNat then .high else .low

end Sys2Proof.Machine
end

