-- ==== Sys2Proof/Machine/Flags.lean ====
section
/-! DEFINITION. The block's flags (10_state R45, R48): the guards of the guarded operations (00_scope R11), the raising
of the four pending bits (60_exceptions R261), and the 10-bit trace word STATUS (10_state R45). -/

namespace Sys2Proof.Machine

/-- Whether a guarded operation is enabled: each operation's "Guard" line. -/
def State.enabled (s : State) : Guarded → Bool
  | .tedge => s.edgePend
  | .tovf => s.ovfPend
  | .period => s.run
  | .eht => s.htPend && !s.encBusy
  | .etc => s.tcPend && !s.encBusy
  | .esym => s.encBusy

/-- The capture counter wraps at this tick (R110): the capture-overflow event of R261. -/
def captureWraps (s : State) : Bool := s.capCnt == s.cfg.capPeriod - 1

/-- `HT_PEND` after a bit period: raised after bank 0's last symbol if armed; a set bit stays set (R200, R262). -/
def htPendAfter (s : State) : Bool := (s.dmaPos == bankSyms s.cfg - 1 && s.htEn) || s.htPend

/-- `TC_PEND` after a bit period: raised after bank 1's last symbol if armed; a set bit stays set (R200, R262). -/
def tcPendAfter (s : State) : Bool := (s.dmaPos == tbufSyms s.cfg - 1 && s.tcEn) || s.tcPend

/-- `STATUS`, the trace word that collects the 1-bit elements (R45); no operation reads it. -/
def State.status (s : State) : BitVec 10 :=
  BitVec.ofBool (s.encBank == .bank1) ++ BitVec.ofBool s.encBusy ++ BitVec.ofBool s.run ++ BitVec.ofBool s.tcEn ++
    BitVec.ofBool s.htEn ++ BitVec.ofBool s.tcPend ++ BitVec.ofBool s.htPend ++ BitVec.ofBool s.ovfPend ++
    BitVec.ofBool s.edgePend ++ BitVec.ofBool s.ovf

end Sys2Proof.Machine
end

