-- ==== Sys2Proof/WellFormed.lean ====
section
/-! DEFINITION. What 00_scope R9 calls a well-formed configuration, one named check per line of the rule. A term
of `Instr` has no ill-formed case: its operands are held at their fields' widths (30_encoding R85, R87). -/

namespace Sys2Proof

/-- "`3 <= M <= 2^16` and `L >= 3`" (R9). -/
abbrev Config.HistoryOk (c : Config) : Prop := 3 ≤ c.magnets ∧ c.magnets ≤ 2 ^ 16 ∧ 3 ≤ c.histLen

/-- "every `ARC[i]` is in `[0, 2^32)`" (R9). -/
abbrev Config.ArcOk (c : Config) : Prop := ∀ a ∈ c.arc, a < 2 ^ 32

/-- "`CAP_PERIOD >= 2`" (R9). -/
abbrev Config.CaptureOk (c : Config) : Prop := 2 ≤ c.capPeriod

/-- "`1 <= N <= LED_MAX <= 2^24` and `G >= 1`" (R9). -/
abbrev Config.StripOk (c : Config) : Prop :=
  1 ≤ c.ledCount ∧ c.ledCount ≤ c.ledMax ∧ c.ledMax ≤ 2 ^ 24 ∧ 1 ≤ c.gapSlots

/-- "`0 < DUTY0 < DUTY1 < P < 2^SYM_W`" (R9), with `SYM_W = 16` (R8). -/
abbrev Config.DutyOk (c : Config) : Prop :=
  0 < c.duty0 ∧ c.duty0 < c.duty1 ∧ c.duty1 < c.periodTicks ∧ c.periodTicks < 2 ^ 16

/-- "`FREQ_NUM >= 1`, `FREQ_DEN >= 1`, `SCORE_SCALE >= 1` and `CONF_THRESHOLD >= 0`" (R9); the last holds of every
natural number. -/
abbrev Config.ScaleOk (c : Config) : Prop := 1 ≤ c.freqNum ∧ 1 ≤ c.freqDen ∧ 1 ≤ c.scoreScale

/-- R9, as a check that runs. -/
def Config.wellFormed (c : Config) : Bool :=
  decide (c.HistoryOk ∧ c.ArcOk ∧ c.CaptureOk ∧ c.StripOk ∧ c.DutyOk ∧ c.ScaleOk)

/-- R9: the configuration is well formed. A step under any other is refused as BadConfig (R268). -/
abbrev Config.WellFormed (c : Config) : Prop := c.wellFormed = true

end Sys2Proof
end

