-- ==== Sys2Proof/Machine/Ops.lean ====
section
/-! DEFINITION. The named operations over the storage spaces and the observations (00_scope R11's primitives), the
beginning of a bank's refill shared by EHT and ETC, and the choice of the next operation. The block has no
exceptions (60_exceptions R260): servicing an event saves nothing and enters nothing (R265), so the operation
that other hardware would have here, taking an exception, is the guarded step itself. -/

namespace Sys2Proof.Machine

/-- The element listed at an index, if one is. -/
def Memory.find {w : Nat} : Memory w → Nat → Option (BitVec w)
  | [], _ => none
  | (a, v) :: rest, i => if a = i then some v else Memory.find rest i

/-- List an element at an index, in place of the one listed there before, keeping the indices rising. -/
def Memory.write {w : Nat} : Memory w → Nat → BitVec w → Memory w
  | [], i, v => [(i, v)]
  | (a, x) :: rest, i, v =>
    if i < a then (i, v) :: (a, x) :: rest
    else if i = a then (i, v) :: rest
    else (a, x) :: Memory.write rest i v

/-- The canonical form of a space of `size` elements: indices strictly rising, all below `size` (R60; log entry 6). -/
abbrev Memory.wf {w : Nat} (size : Nat) (m : Memory w) : Prop :=
  m.Pairwise (fun a b => a.1 < b.1) ∧ ∀ e ∈ m, e.1 < size

/-- `ColorRead(i)` (R11): the word written since the last reset, or that reset's draw (R31). -/
def State.colorRead (s : State) (i : Nat) : ColorWord := (s.color.find i).getD (Config.colorDraw s.draws i)

/-- `ColorWrite(i, v)` (R11). -/
def State.colorWrite (s : State) (i : Nat) (v : ColorWord) : State := { s with color := s.color.write i v }

/-- `TbufRead(q)` (R11): the symbol written since the last reset, or that reset's draw (R32). -/
def State.tbufRead (s : State) (q : Nat) : Symbol := (s.tbuf.find q).getD (Config.symDraw s.draws q)

/-- `TbufWrite(q, v)` (R11). -/
def State.tbufWrite (s : State) (q : Nat) (v : Symbol) : State := { s with tbuf := s.tbuf.write q v }

/-- `Emit(s)` (R11): the symbol joins WIRE, and the line ends the period at the level of its waveform (R43, R203). -/
def State.emit (s : State) (sym : Symbol) : State :=
  { s with wire := s.wire ++ [sym], line := levelAfter s.cfg sym }

/-- Return a value to the host (R83, R84). -/
def State.respond (s : State) (r : Response) : State := { s with responses := s.responses ++ [r] }

/-- Begin refilling a bank (R170, R171): busy, at the bank's first symbol. -/
def State.beginRefill (s : State) (b : Bank) : State := { s with encBusy := true, encBank := b, encK := 0 }

/-- What the given trace offers next. -/
inductive Fetch where
  /-- An operation, and the state with its word taken off the trace. -/
  | run (i : Instr) (s : State)
  | stop (f : Fault)
  | refuse (r : Refusal)

/-- The choice of the next operation: a configuration that breaks R9 is refused as a whole (R268), the trace's first
word is decoded, and a word that spells no operation is refused by name (R88). -/
def fetch (s : State) : Fetch :=
  if s.cfg.WellFormed then
    match s.trace with
    | [] => .stop .traceEnd
    | w :: rest =>
      match decode w with
      | .ok i => .run i { s with trace := rest }
      | .error .reservedOp => .refuse .reservedOp
      | .error .reservedField => .refuse .reservedField
  else .refuse .badConfig

/-- Put a word where the next step takes it from: before the rest of the trace. -/
def State.offer (s : State) (w : OpWord) : State := { s with trace := w :: s.trace }

end Sys2Proof.Machine
end

