-- ==== Sys2Proof/Machine/Capture.lean ====
section
/-! DEFINITION. The capture front end's operations: CAPTICK and EDGE (40_capture R110, R111). -/

namespace Sys2Proof.Machine

/-- CAPTICK (R110): count; at the last count wrap to 0 and raise the overflow event. -/
def execCaptick (s : State) : Host.Outcome State Fault Refusal :=
  if captureWraps s then .next { s with capCnt := 0, ovfPend := true }
  else .next { s with capCnt := s.capCnt + 1 }

/-- EDGE (R111): latch the count, clear it, raise the capture event. -/
def execEdge (s : State) : Host.Outcome State Fault Refusal :=
  .next { s with capLatch := s.capCnt, capCnt := 0, edgePend := true }

end Sys2Proof.Machine
end

