-- ==== Sys2Proof/Machine/Encoder.lean ====
section
/-! DEFINITION. The encoder's operations EHT, ETC and ESYM (42_encoder R170 to R172), and the body of ESYM that START's
prefill shares (44_host R231). -/

namespace Sys2Proof.Machine

/-- `ENC_WORD` once symbol `k` of the bank is due: a colour slot's word is read at its first symbol (R172). -/
def latchedWord (s : State) (k : Nat) : ColorBits :=
  if k % 24 = 0 ∧ s.encCursor < s.cfg.ledCount then (s.colorRead s.encCursor).setWidth 24 else s.encWord

/-- The symbol that position `k` of the bank gets (R172, R173): bit `23 - (k mod 24)` of the slot at the cursor. -/
def dueSymbol (s : State) (k : Nat) : Symbol :=
  symbolOf s.cfg s.encCursor (23 - k % 24) (latchedWord s k)

/-- `ENC_CURSOR` after symbol `k`: one slot on, mod SLOTS, after a slot's 24th symbol (R172, R36). -/
def cursorAfter (s : State) (k : Nat) : Nat :=
  if k % 24 = 23 then (s.encCursor + 1) % slots s.cfg else s.encCursor

/-- The body of ESYM for symbol `k`, "without its ENC_BUSY and ENC_K updates" (R172, R231). -/
def encodeAt (s : State) (k : Nat) : State :=
  { s with
    encWord := latchedWord s k
    tbuf := s.tbuf.write (bankBase s.cfg s.encBank + k) (dueSymbol s k)
    encCursor := cursorAfter s k }

/-- EHT (R170): begin refilling bank 0. -/
def execEht (s : State) : Host.Outcome State Fault Refusal :=
  if s.enabled .eht then .next ({ s with htPend := false }.beginRefill .bank0)
  else .fault (.notEnabled .eht)

/-- ETC (R171): begin refilling bank 1. -/
def execEtc (s : State) : Host.Outcome State Fault Refusal :=
  if s.enabled .etc then .next ({ s with tcPend := false }.beginRefill .bank1)
  else .fault (.notEnabled .etc)

/-- ESYM (R172): write the next symbol of the bank being repopulated. -/
def execEsym (s : State) : Host.Outcome State Fault Refusal :=
  if s.enabled .esym then
    if s.encK = bankSyms s.cfg - 1 then .next { encodeAt s s.encK with encK := 0, encBusy := false }
    else .next { encodeAt s s.encK with encK := s.encK + 1 }
  else .fault (.notEnabled .esym)

end Sys2Proof.Machine
end

