-- ==== Sys2Proof/Machine/Estimate.lean ====
section
/-! DEFINITION. The disambiguation and frequency functions of 41_estimator section 2 (R140 to R148), over natural
numbers. A rational of the spec is a numerator and a positive denominator, and every quotient that the spec
floors is one exact division (R153 asks for the results, not for an order of evaluation). The same functions
written over the rationals, as the rules write them, stand in Safety.lean. -/

namespace Sys2Proof.Machine

/-- A non-negative rational as numerator and denominator. -/
structure Ratio where
  num : Nat
  den : Nat
  deriving DecidableEq, Repr

/-- `f(c, j) = ARC[a(c, j)] / max(HIST[j], 1)` (R141). -/
def impliedFreq (c : Config) (hist : List Nat) (cand j : Nat) : Ratio :=
  ⟨arcAt c (arcIndex c cand j), max (hist.getD j 0) 1⟩

/-- `t(j) = HIST[0] + ... + HIST[j]` (R142). -/
def elapsed (hist : List Nat) (j : Nat) : Nat := (hist.take (j + 1)).sum

/-- The anchor span `T = t(L-1) - t(0)` (R142). -/
def anchorSpan (c : Config) (hist : List Nat) : Nat := elapsed hist (c.histLen - 1) - elapsed hist 0

/-- `F(c, j)`, the line through the two anchors at `t(j)` (R143): with `f0 = n0/d0`, `f1 = n1/d1` and
`u = t(j) - t(0)`, it is `(n0 d1 (T - u) + n1 d0 u) / (d0 d1 T)`, and `f0` when `T = 0`. -/
def trend (c : Config) (hist : List Nat) (cand j : Nat) : Ratio :=
  let f0 := impliedFreq c hist cand 0
  let f1 := impliedFreq c hist cand (c.histLen - 1)
  let span := anchorSpan c hist
  let u := elapsed hist j - elapsed hist 0
  if span = 0 then f0
  else ⟨f0.num * f1.den * (span - u) + f1.num * f0.den * u, f0.den * f1.den * span⟩

/-- The distance of two naturals. -/
def absDiff (a b : Nat) : Nat := (a - b) + (b - a)

/-- `e(c, j)`, the scaled relative deviation of a sample from the trend (R144): with `f = n/d` and `F = m/e`,
`|f - F| / F = |n e - m d| / (m d)`. -/
def deviation (c : Config) (hist : List Nat) (cand j : Nat) : Nat :=
  let f := impliedFreq c hist cand j
  let t := trend c hist cand j
  if f.num * t.den = t.num * f.den then 0
  else if t.num = 0 then scoreMax
  else min scoreMax (c.scoreScale * absDiff (f.num * t.den) (t.num * f.den) / (t.num * f.den))

/-- `score(c)`, the largest deviation of a candidate's samples (R145). -/
def score (c : Config) (hist : List Nat) (cand : Nat) : Nat :=
  ((List.range c.histLen).map (deviation c hist cand)).foldl max 0

/-- The scores of the candidates `0 .. M-1` (R145). -/
def scores (c : Config) (hist : List Nat) : List Nat := (List.range c.magnets).map (score c hist)

/-- The least element of a list, 0 of the empty one. -/
def leastOf : List Nat → Nat
  | [] => 0
  | [a] => a
  | a :: b :: rest => min a (leastOf (b :: rest))

/-- The place of a value's first occurrence in a list. -/
def firstIndexOf (v : Nat) : List Nat → Nat
  | [] => 0
  | a :: rest => if a = v then 0 else firstIndexOf v rest + 1

/-- What `RANK` returns (R146). -/
structure Ranking where
  best : Nat
  s1 : Nat
  s2 : Nat
  deriving DecidableEq, Repr

/-- `RANK` of a list of scores: the least index of the minimum, the minimum, and the minimum over the others
(R146). -/
def rankScores (sc : List Nat) : Ranking :=
  let s1 := leastOf sc
  let best := firstIndexOf s1 sc
  ⟨best, s1, leastOf (sc.eraseIdx best)⟩

/-- `RANK(HIST)` (R146). -/
def rank (c : Config) (hist : List Nat) : Ranking := rankScores (scores c hist)

/-- `conf = floor(CONF_FACTOR * (s2 - s1) / (s1 + 1))` (R146). -/
def confidence (r : Ranking) : Nat := confFactor * (r.s2 - r.s1) / (r.s1 + 1)

/-- `OVERRIDE(conf, best, pt)` (R148): "exceeds" is strictly greater. -/
def overridePhase (c : Config) (conf best pt : Nat) : Nat :=
  if c.confThreshold < conf ∧ best ≠ pt then best else pt

/-- `FREQCALC(a, d)` (R147). -/
def freqCalc (c : Config) (a d : Nat) : Nat :=
  if d = 0 then freqMax
  else min freqMax (max 1 (a * c.freqNum / (d * c.magnets * c.freqDen)))

/-- "Push duration into Interval History (drop oldest)" (R130 step 1). -/
def pushHist (hist : List Nat) (d : Nat) : List Nat := hist.drop 1 ++ [d]

/-- `PHASE` after the disambiguation of the updated history (R130 steps 2 to 4). -/
def resolvePhase (c : Config) (hist : List Nat) (phase : Nat) : Nat :=
  let r := rank c hist
  overridePhase c (confidence r) r.best (tentativePhase c phase)

end Sys2Proof.Machine
end

