-- ==== Sys2Proof/Machine/Estimator.lean ====
section
/-! DEFINITION. The estimator's operations: TEDGE and TOVF (41_estimator R130, R131). -/

namespace Sys2Proof.Machine

/-- `FREQ` after TEDGE, read with the OVF value before the step and the new PHASE (R130 step 5). -/
def freqAfterEdge (s : State) (phase : Nat) : BitVec 32 :=
  if s.ovf then 0 else BitVec.ofNat 32 (freqCalc s.cfg (arcAt s.cfg phase) s.capLatch)

/-- TEDGE (R130): service a captured edge. -/
def execTedge (s : State) : Host.Outcome State Fault Refusal :=
  if s.enabled .tedge then
    let hist := pushHist s.hist s.capLatch
    let phase := resolvePhase s.cfg hist s.phase
    .next { s with
      edgePend := false
      hist := hist
      phase := phase
      freq := freqAfterEdge s phase
      ovf := false }
  else .fault (.notEnabled .tedge)

/-- TOVF (R131): service a counter overflow. -/
def execTovf (s : State) : Host.Outcome State Fault Refusal :=
  if s.enabled .tovf then .next { s with ovfPend := false, ovf := true, freq := 0 }
  else .fault (.notEnabled .tovf)

end Sys2Proof.Machine
end

