-- ==== Sys2Proof/Machine/HostOps.lean ====
section
/-! DEFINITION. RESET and the host's operations START, WRCOLOR, RDCOLOR and RDSNAP (44_host R230 to R234). -/

namespace Sys2Proof.Machine

/-- RESET (R230): every element to R49, fresh draws for COLOR and TBUF. WIRE and the responses, being observations,
are not truncated (R43), and the rest of the trace and the configuration stay. -/
def execReset (s : State) : Host.Outcome State Fault Refusal :=
  .next { State.resetWith s.cfg with
    trace := s.trace
    responses := s.responses
    draws := s.draws + 1
    wire := s.wire }

/-- One bank of START's prefill (R231): the body of ESYM for each symbol of the bank, in order. -/
def prefillBank (s : State) (b : Bank) : State :=
  (List.range (bankSyms s.cfg)).foldl (fun t k => encodeAt { t with encK := k } k) { s with encBank := b }

/-- START's prefill (R231): from slot 0, bank 0 first, then bank 1. -/
def prefill (s : State) : State := prefillBank (prefillBank { s with encCursor := 0 } .bank0) .bank1

/-- START (R231): prefill both banks, arm both notifications, start the pulse generator; ignored while running. -/
def execStart (s : State) : Host.Outcome State Fault Refusal :=
  if s.run then .next s
  else .next { prefill s with
    encBusy := false
    encK := 0
    htPend := false
    tcPend := false
    htEn := true
    tcEn := true
    dmaPos := 0
    run := true }

/-- WRCOLOR i, w (R232). -/
def execWrcolor (i : BitVec 24) (w : ColorWord) (s : State) : Host.Outcome State Fault Refusal :=
  if s.cfg.ledCount ≤ i.toNat then .fault .hostIndexRange else .next (s.colorWrite i.toNat w)

/-- RDCOLOR i (R233). -/
def execRdcolor (i : BitVec 24) (s : State) : Host.Outcome State Fault Refusal :=
  if s.cfg.ledCount ≤ i.toNat then .fault .hostIndexRange
  else .next (s.respond (.color (s.colorRead i.toNat)))

/-- RDSNAP's response: zeros(15), OVF, zext_16(PHASE), FREQ (R83, R234). -/
def snapshot (s : State) : BitVec 64 := 0#15 ++ BitVec.ofBool s.ovf ++ BitVec.ofNat 16 s.phase ++ s.freq

/-- RDSNAP (R234): one atomic snapshot. -/
def execRdsnap (s : State) : Host.Outcome State Fault Refusal := .next (s.respond (.snap (snapshot s)))

end Sys2Proof.Machine
end

