-- ==== Sys2Proof/Machine/Transfer.lean ====
section
/-! DEFINITION. The transfer engine's operation PERIOD (43_transfer R200). -/

namespace Sys2Proof.Machine

/-- PERIOD (R200): emit the symbol at DMA_POS, raise the armed notifications, advance circularly. -/
def execPeriod (s : State) : Host.Outcome State Fault Refusal :=
  if s.enabled .period then
    .next { s.emit (s.tbufRead s.dmaPos) with
      htPend := htPendAfter s
      tcPend := tcPendAfter s
      dmaPos := (s.dmaPos + 1) % tbufSyms s.cfg }
  else .fault (.notEnabled .period)

end Sys2Proof.Machine
end

