-- ==== Sys2Proof/Machine/Dispatch.lean ====
section
/-! DEFINITION. The dispatch of an operation to its meaning: one arm per constructor of Instr. -/

namespace Sys2Proof.Machine

def exec (i : Instr) (s : State) : Host.Outcome State Fault Refusal :=
  match i with
  | .reset => Sys2Proof.Machine.execReset s
  | .start => Sys2Proof.Machine.execStart s
  | .wrcolor idx w => Sys2Proof.Machine.execWrcolor idx w s
  | .rdcolor idx => Sys2Proof.Machine.execRdcolor idx s
  | .rdsnap => Sys2Proof.Machine.execRdsnap s
  | .captick => Sys2Proof.Machine.execCaptick s
  | .edge => Sys2Proof.Machine.execEdge s
  | .tedge => Sys2Proof.Machine.execTedge s
  | .tovf => Sys2Proof.Machine.execTovf s
  | .period => Sys2Proof.Machine.execPeriod s
  | .eht => Sys2Proof.Machine.execEht s
  | .etc => Sys2Proof.Machine.execEtc s
  | .esym => Sys2Proof.Machine.execEsym s

end Sys2Proof.Machine
end

