-- ==== Sys2Proof/Machine/Step.lean ====
section
/-! DEFINITION. One step of the block: the next operation of the given interleaving (20_memory R64), and how an
operation word is put where the next step takes it. -/

namespace Sys2Proof.Machine

/-- One step: take the trace's first operation and run it. -/
def step (s : State) : Host.Outcome State Fault Refusal :=
  match fetch s with
  | .run i t => exec i t
  | .stop f => .fault f
  | .refuse r => .refused r

/-- `s` with the word that opcode_table.json numbers as `w` offered to the next step (log entry 3). -/
def State.withFetchWord (s : State) (nbits w : Nat) : State := s.offer (tableWord nbits w)

end Sys2Proof.Machine
end

