-- ==== Sys2Proof/Safety.lean ====
section
/-! DEFINITION. The terms claims are stated in: sequences of operations, what a step keeps, the invariant of the block,
the timing assumptions DEADLINE and SERVICE (70_reset_and_hazards R311, R312), the frame on the wire (30_encoding
R82), and the estimator's functions over the rationals as 41_estimator R141 to R145 write them. -/

namespace Sys2Proof.Machine

/-! ### Sequences of operations -/

/-- The operations of a list, one after the other, stopping where one stops (R269: "the state reached after a named
finite sequence of operations"). -/
def runOps : List Instr → State → Host.Outcome State Fault Refusal
  | [], s => .next s
  | i :: rest, s =>
    match exec i s with
    | .next t => runOps rest t
    | .fault f => .fault f
    | .refused r => .refused r

/-- A condition on each operation of a sequence and the state it begins in, as far as the sequence runs. -/
def runMeets (cond : Instr → State → Prop) : List Instr → State → Prop
  | [], _ => True
  | i :: rest, s =>
    cond i s ∧
      match exec i s with
      | .next t => runMeets cond rest t
      | .fault _ => True
      | .refused _ => True

/-- The operations of a sequence with the state each begins in, as far as the sequence runs. -/
def runSteps : List Instr → State → List (Instr × State)
  | [], _ => []
  | i :: rest, s =>
    (i, s) ::
      match exec i s with
      | .next t => runSteps rest t
      | .fault _ => []
      | .refused _ => []

/-! ### The tachometer's events along a run -/

/-- How many capture-overflow events a run holds (R112, R261). -/
def overflows (ops : List Instr) (s : State) : Nat :=
  (runSteps ops s).countP fun e => e.1 == .captick && captureWraps e.2

/-- The durations that the EDGEs of a run latch, oldest first (R111). -/
def capturedDurations (ops : List Instr) (s : State) : List Nat :=
  (runSteps ops s).filterMap fun e => if e.1 = .edge then some e.2.capCnt else none

/-- The durations that the TEDGEs of a run service, oldest first (R130). -/
def servicedDurations (ops : List Instr) (s : State) : List Nat :=
  (runSteps ops s).filterMap fun e => if e.1 = .tedge then some e.2.capLatch else none

/-- The tachometer events of a run in order of arrival, each named by the operation that services it (R261). -/
def arrivals (ops : List Instr) (s : State) : List Guarded :=
  (runSteps ops s).filterMap fun e =>
    if e.1 = .edge then some .tedge else if e.1 = .captick ∧ captureWraps e.2 = true then some .tovf else none

/-- The tachometer's services of a run, in order. -/
def services (ops : List Instr) (s : State) : List Guarded :=
  (runSteps ops s).filterMap fun e =>
    if e.1 = .tedge then some .tedge else if e.1 = .tovf then some .tovf else none

/-- The tachometer event that waits, if one does. -/
def waiting (s : State) : List Guarded :=
  if s.edgePend then [.tedge] else if s.ovfPend then [.tovf] else []

/-! ### What a step keeps -/

/-- The model's own inputs are kept: the configuration, the trace and the draws. -/
def keepsInputs (s t : State) : Prop := t.cfg = s.cfg ∧ t.trace = s.trace ∧ t.draws = s.draws

/-- The capture front end's state is kept (R21 to R24). -/
def keepsCapture (s t : State) : Prop :=
  t.capCnt = s.capCnt ∧ t.capLatch = s.capLatch ∧ t.edgePend = s.edgePend ∧ t.ovfPend = s.ovfPend

/-- The estimator's state is kept (R25 to R28). -/
def keepsEstimator (s t : State) : Prop :=
  t.hist = s.hist ∧ t.phase = s.phase ∧ t.freq = s.freq ∧ t.ovf = s.ovf

/-- Every word of the colour buffer reads as before (R31). -/
def keepsColor (s t : State) : Prop := ∀ i, t.colorRead i = s.colorRead i

/-- Every symbol of the transfer buffer reads as before (R32). -/
def keepsTbuf (s t : State) : Prop := ∀ q, t.tbufRead q = s.tbufRead q

/-- The encoder's state is kept (R33 to R37). -/
def keepsEncoder (s t : State) : Prop :=
  t.encBusy = s.encBusy ∧ t.encBank = s.encBank ∧ t.encK = s.encK ∧ t.encCursor = s.encCursor ∧
    t.encWord = s.encWord

/-- The transfer engine's state is kept (R38 to R41). -/
def keepsEngine (s t : State) : Prop :=
  t.run = s.run ∧ t.htEn = s.htEn ∧ t.tcEn = s.tcEn ∧ t.htPend = s.htPend ∧ t.tcPend = s.tcPend ∧
    t.dmaPos = s.dmaPos

/-- The output stream and the line are kept (R43, R203). -/
def keepsWire (s t : State) : Prop := t.wire = s.wire ∧ t.line = s.line

/-- No response is returned (R84). -/
def keepsResponses (s t : State) : Prop := t.responses = s.responses

/-! ### Operand fields -/

/-- The operation's word has an operand in field `A` (R86). -/
def usesA : Instr → Bool
  | .wrcolor _ _ | .rdcolor _ => true
  | .reset | .start | .rdsnap | .captick | .edge | .tedge | .tovf | .period | .eht | .etc | .esym => false

/-- The operation's word has an operand in field `B` (R86). -/
def usesB : Instr → Bool
  | .wrcolor _ _ => true
  | .rdcolor _ | .reset | .start | .rdsnap | .captick | .edge | .tedge | .tovf | .period | .eht | .etc | .esym => false

/-- The guard that an operation has, if it has one (R11). -/
def guardOf : Instr → Option Guarded
  | .tedge => some .tedge
  | .tovf => some .tovf
  | .period => some .period
  | .eht => some .eht
  | .etc => some .etc
  | .esym => some .esym
  | .reset | .start | .wrcolor _ _ | .rdcolor _ | .rdsnap | .captick | .edge => none

/-- The colour index that an operation accesses for the host, if it does (R232, R233). -/
def hostIndex : Instr → Option Nat
  | .wrcolor i _ => some i.toNat
  | .rdcolor i => some i.toNat
  | .reset | .start | .rdsnap | .captick | .edge | .tedge | .tovf | .period | .eht | .etc | .esym => none

/-! ### The invariant -/

/-- One of the three symbol values that the block writes (R81). -/
def isSymbol (c : Config) (v : Symbol) : Prop := v = gapSym ∨ v = bitSym c false ∨ v = bitSym c true

/-- Every counter, index and duration lies in the range that 10_state gives it (R21, R22, R25, R26, R35, R36, R41). -/
structure State.InRange (s : State) : Prop where
  capCnt : s.capCnt < s.cfg.capPeriod
  capLatch : s.capLatch < s.cfg.capPeriod
  histLen : s.hist.length = s.cfg.histLen
  hist : ∀ d ∈ s.hist, d < s.cfg.capPeriod
  phase : s.phase < s.cfg.magnets
  encK : s.encK < bankSyms s.cfg
  encCursor : s.encCursor < slots s.cfg
  dmaPos : s.dmaPos < tbufSyms s.cfg

/-- The two storage spaces keep their canonical form (R60, log entry 6). -/
structure State.StorageOk (s : State) : Prop where
  color : s.color.wf s.cfg.ledCount
  tbuf : s.tbuf.wf (tbufSyms s.cfg)

/-- The flags agree with one another: an overflow shows frequency 0 (R150), the arming bits follow RUN (R39), and a
stopped engine has neither a pending notification nor a refill in progress (R38 to R40, R230, R231). -/
structure State.FlagsOk (s : State) : Prop where
  ovfFreq : s.ovf = true → s.freq = 0
  htEn : s.htEn = s.run
  tcEn : s.tcEn = s.run
  stopped : s.run = false → s.htPend = false ∧ s.tcPend = false ∧ s.encBusy = false
  idle : s.encBusy = false → s.encK = 0

/-- The output holds the block's three symbols only (R81), the line rests low between bit periods (R203), and while the
engine runs no position of the transfer buffer still holds a reset draw (R32: START overwrites every position). -/
structure State.OutputOk (s : State) : Prop where
  line : s.line = .low
  wire : ∀ v ∈ s.wire, isSymbol s.cfg v
  tbuf : ∀ e ∈ s.tbuf, isSymbol s.cfg e.2
  filled : s.run = true → ∀ q < tbufSyms s.cfg, (s.tbuf.find q).isSome = true

/-- The invariant of the block under a well-formed configuration (R9). -/
structure State.Inv (s : State) : Prop where
  config : s.cfg.WellFormed
  inRange : s.InRange
  storage : s.StorageOk
  flags : s.FlagsOk
  output : s.OutputOk

/-- R150 with the history it needs as one bit: `first` says that the most recent estimator step was a TEDGE that began
with OVF = 1. -/
def freqOvfRelation (first : Bool) (s : State) : Prop :=
  (s.ovf = true → s.freq = 0 ∧ first = false) ∧ (s.ovf = false → (s.freq = 0 ↔ first = true))

/-- How an operation moves R150's history bit; RESET begins a new history. -/
def firstEdgeAfter (i : Instr) (s : State) (first : Bool) : Bool :=
  match i with
  | .tedge => s.ovf
  | .tovf | .reset => false
  | .start | .wrcolor _ _ | .rdcolor _ | .rdsnap | .captick | .edge | .period | .eht | .etc | .esym => first

/-! ### Timing assumptions -/

/-- DEADLINE at one step (R311): PERIOD does not read the first position of a bank whose refill is still in progress
or still waiting to start. -/
def deadlineMet (i : Instr) (s : State) : Prop :=
  i = .period →
    (s.dmaPos = bankBase s.cfg .bank0 → s.htPend = false ∧ ¬(s.encBusy = true ∧ s.encBank = .bank0)) ∧
    (s.dmaPos = bankBase s.cfg .bank1 → s.tcPend = false ∧ ¬(s.encBusy = true ∧ s.encBank = .bank1))

/-- SERVICE at one step (R312): the capture front end sets no pending bit while one still waits. -/
def serviceMet (i : Instr) (s : State) : Prop :=
  (i = .edge ∨ (i = .captick ∧ captureWraps s = true)) → s.edgePend = false ∧ s.ovfPend = false

/-- "every notification is serviced before the next notification of the same kind is raised" (R176), at one step. -/
def noLostNotification (i : Instr) (s : State) : Prop :=
  i = .period →
    (s.dmaPos = bankSyms s.cfg - 1 → s.htPend = false) ∧ (s.dmaPos = tbufSyms s.cfg - 1 → s.tcPend = false)

/-- Two waiting notifications are serviced oldest first: with DMA_POS in bank 0 the full-consumed one is the newer, with
DMA_POS in bank 1 the half-consumed one. R262 admits either order; R176 needs this one (log entry 15). -/
def servedInOrder (i : Instr) (s : State) : Prop :=
  (i = .etc → s.dmaPos < bankSyms s.cfg → s.htPend = false) ∧
    (i = .eht → bankSyms s.cfg ≤ s.dmaPos → s.tcPend = false)

/-- The operation neither writes a colour word nor resets the block. -/
def noColorChange (i : Instr) (_ : State) : Prop := i ≠ .reset ∧ ∀ idx w, i ≠ .wrcolor idx w

/-! ### Weak fairness -/

/-- The operation that a guard belongs to. -/
def instrOf : Guarded → Instr
  | .tedge => .tedge
  | .tovf => .tovf
  | .period => .period
  | .eht => .eht
  | .etc => .etc
  | .esym => .esym

/-- An infinite run under weak fairness (R320): operation `op n` takes state `st n` to the next, "every continuously
enabled agent step is eventually taken, and the environment keeps supplying CAPTICK and, after START, PERIOD" (until a
RESET stops the engine). The agent steps meant are those with a guard (log entry 20). -/
structure FairRun (op : Nat → Instr) (st : Nat → State) : Prop where
  runs : ∀ n, exec (op n) (st n) = .next (st (n + 1))
  fair : ∀ g n, (∀ m, n ≤ m → (st m).enabled g = true) → ∃ m, n ≤ m ∧ op m = instrOf g
  ticks : ∀ n, ∃ m, n ≤ m ∧ op m = .captick
  periods : ∀ n, (st n).run = true → ∃ m, n ≤ m ∧ (op m = .period ∨ op m = .reset)

/-! ### The frame -/

/-- The symbol at place `k` of slot `slot` for the colour buffer of a state (R82, R173, R174). -/
def slotSymbol (s : State) (slot k : Nat) : Symbol :=
  symbolOf s.cfg slot (23 - k) ((s.colorRead slot).setWidth 24)

/-- Symbol `n` of the endlessly repeated frame of R82: slots `0 .. SLOTS-1` in order, 24 symbols each. -/
def frameSymbol (s : State) (n : Nat) : Symbol := slotSymbol s (n / 24 % slots s.cfg) (n % 24)

end Sys2Proof.Machine

namespace Sys2Proof.Exact

open Sys2Proof.Machine

/-! ### The disambiguation over the rationals -/

/-- `f(c, j)` (R141). -/
def f (c : Config) (hist : List Nat) (cand j : Nat) : ℚ :=
  (arcAt c (arcIndex c cand j) : ℚ) / max (hist.getD j 0 : ℚ) 1

/-- `t(j) = HIST[0] + ... + HIST[j]` (R142). -/
def t (hist : List Nat) (j : Nat) : ℚ := ∑ i ∈ Finset.range (j + 1), (hist.getD i 0 : ℚ)

/-- `T = t(L-1) - t(0)` (R142). -/
def span (c : Config) (hist : List Nat) : ℚ := t hist (c.histLen - 1) - t hist 0

/-- `lam(j)` (R143). -/
def lam (c : Config) (hist : List Nat) (j : Nat) : ℚ :=
  if 0 < span c hist then (t hist j - t hist 0) / span c hist else 0

/-- `F(c, j)` (R143). -/
def trend (c : Config) (hist : List Nat) (cand j : Nat) : ℚ :=
  f c hist cand 0 + (f c hist cand (c.histLen - 1) - f c hist cand 0) * lam c hist j

/-- `e(c, j)` (R144). -/
def deviation (c : Config) (hist : List Nat) (cand j : Nat) : ℕ :=
  if f c hist cand j = trend c hist cand j then 0
  else if trend c hist cand j = 0 then scoreMax
  else min scoreMax ⌊(c.scoreScale : ℚ) * |f c hist cand j - trend c hist cand j| / trend c hist cand j⌋₊

/-- `score(c)` (R145). -/
def score (c : Config) (hist : List Nat) (cand : Nat) : ℕ :=
  (Finset.range c.histLen).sup (deviation c hist cand)

end Sys2Proof.Exact
end

