-- ==== Sys2Proof/Certificates/Slice0/Obligations.lean ====
section
/-! DEFINITION. The statements for the provers. Each docstring names the rule of spec/ it formalises. Of a next state they
say what the operation writes and, through the `keeps…` terms of Safety.lean, that it changes nothing else. -/

open Sys2Proof Sys2Proof.Machine

/-! ### Encoding -/

/-- R85 to R87: decoding an encoded operation gives it back, for every operand, and a word that decodes to an operation
is that operation's word, so no bit is dropped either way. -/
def Obligations.EncodeAndDecodeAgree : Prop :=
  (∀ i : Instr, decode (encode i) = .ok i) ∧ ∀ (w : OpWord) (i : Instr), decode w = .ok i → encode i = w

/-- R89: a word decodes to an operation of a row iff `word & mask = match` for the row; no two rows match the same word; a
word that no row matches gets one of the two refusals. -/
def Obligations.DecoderFollowsTheTable : Prop :=
  ∀ w : OpWord,
    (∀ i, decode w = .ok i → (tableRow i).matches w = true) ∧
    (∀ i, (tableRow i).matches w = true → ∃ j, decode w = .ok j ∧ tableRow j = tableRow i) ∧
    (∀ i j, (tableRow i).matches w = true → (tableRow j).matches w = true → tableRow i = tableRow j) ∧
    ((∀ i, (tableRow i).matches w = false) → decode w = .error .reservedOp ∨ decode w = .error .reservedField)

/-- R88: a word with an `OP` not in R86 is refused as ReservedOp, and a word with a nonzero field that its `OP` does not
list is refused as ReservedField. -/
def Obligations.ReservedWordsAreRefused : Prop :=
  ∀ (s : State) (w : OpWord) (rest : List OpWord), s.cfg.WellFormed → s.trace = w :: rest →
    ((∀ i, opcodeOf i ≠ opField w) → step s = .refused .reservedOp) ∧
    (∀ i, opcodeOf i = opField w →
      ((usesA i = false ∧ aField w ≠ 0) ∨ (usesB i = false ∧ bField w ≠ 0)) → step s = .refused .reservedField)

/-- R86: words written out from the table of operation codes decode to the operations they stand for (sanity). -/
def Obligations.WordsOfTheSpecDecode : Prop :=
  decode 0x1000000000000000 = .ok .captick ∧ decode 0x1200000000000000 = .ok .tedge ∧
  decode 0x2000000000000000 = .ok .period ∧ decode 0x2300000000000000 = .ok .esym ∧
  decode 0x030000000000FF00 = .ok (.wrcolor 0 0x0000FF00) ∧ decode 0x0400000100000000 = .ok (.rdcolor 1) ∧
  decode 0x0000000000000000 = .error .reservedOp ∧ decode 0x0400000000000001 = .error .reservedField

/-! ### The step -/

/-- A step takes the trace's first word and runs the operation it decodes to (R85), with that word taken off the trace; and
a word offered with withFetchWord is the one the next step runs. The trace, taking its first word and withFetchWord are
the model's own choice (log entry 3, DESIGN CHOICE); what they stand for is the interleaving of R64. -/
def Obligations.StepRunsTheDecodedOperation : Prop :=
  (∀ (s : State) (w : OpWord) (rest : List OpWord) (i : Instr),
    s.cfg.WellFormed → s.trace = w :: rest → decode w = .ok i → step s = exec i { s with trace := rest }) ∧
  (∀ (s : State) (i : Instr), s.cfg.WellFormed → step (s.withFetchWord 64 (encode i).toNat) = exec i s)

/-- R9, R268: under an ill-formed configuration every step is refused as BadConfig, whatever the trace; under a well-formed
one no step is. -/
def Obligations.IllFormedConfigurationsAreRefused : Prop :=
  ∀ s : State, step s = .refused .badConfig ↔ ¬s.cfg.WellFormed

/-- An operation answers a next state exactly when its guard holds (R11) and its host index is below `N` (R266); with a
false guard it is stuck under its own name (log entry 7, DEDUCED), with a host index out of range it raises
HostIndexRange. That exec refuses nothing, and runs under an ill-formed configuration too, is the model's choice (log
entry 9, DESIGN CHOICE): R268 refuses such a configuration as a whole, which step does. -/
def Obligations.OperationsStopExactlyWhereTheSpecSays : Prop :=
  ∀ (i : Instr) (s : State),
    ((∃ t, exec i s = .next t) ↔
      (∀ g, guardOf i = some g → s.enabled g = true) ∧ ∀ n, hostIndex i = some n → n < s.cfg.ledCount) ∧
    (∀ g, exec i s = .fault (.notEnabled g) ↔ guardOf i = some g ∧ s.enabled g = false) ∧
    (exec i s = .fault .hostIndexRange ↔ ∃ n, hostIndex i = some n ∧ s.cfg.ledCount ≤ n) ∧
    exec i s ≠ .fault .traceEnd ∧ ∀ r, exec i s ≠ .refused r

/-! ### The capture front end -/

/-- R110: CAPTICK, from every state, counts, and at `CAP_PERIOD - 1` wraps to 0 and sets OVF_PEND (a bit already set stays
set); nothing else changes. -/
def Obligations.CaptickCountsAndWraps : Prop :=
  encode .captick = 0x1000000000000000 ∧
  ∀ s : State, ∃ t, exec .captick s = .next t ∧
    (s.capCnt = s.cfg.capPeriod - 1 → t.capCnt = 0 ∧ t.ovfPend = true) ∧
    (s.capCnt ≠ s.cfg.capPeriod - 1 → t.capCnt = s.capCnt + 1 ∧ t.ovfPend = s.ovfPend) ∧
    t.capLatch = s.capLatch ∧ t.edgePend = s.edgePend ∧
    keepsInputs s t ∧ keepsEstimator s t ∧ keepsColor s t ∧ keepsTbuf s t ∧ keepsEncoder s t ∧ keepsEngine s t ∧
    keepsWire s t ∧ keepsResponses s t

/-- R111: EDGE, from every state, latches the count, clears it and sets EDGE_PEND (an earlier latched duration is lost);
nothing else changes. -/
def Obligations.EdgeLatchesTheCount : Prop :=
  encode .edge = 0x1100000000000000 ∧
  ∀ s : State, ∃ t, exec .edge s = .next t ∧
    t.capLatch = s.capCnt ∧ t.capCnt = 0 ∧ t.edgePend = true ∧ t.ovfPend = s.ovfPend ∧
    keepsInputs s t ∧ keepsEstimator s t ∧ keepsColor s t ∧ keepsTbuf s t ∧ keepsEncoder s t ∧ keepsEngine s t ∧
    keepsWire s t ∧ keepsResponses s t

/-- R112, R113: `n` CAPTICKs after an EDGE leave the count at `n mod CAP_PERIOD`, and OVF_PEND has been set since the EDGE iff
`n >= CAP_PERIOD`; the next EDGE latches that count. -/
def Obligations.CaptureMeasuresTicksSinceTheEdge : Prop :=
  ∀ (s : State) (n : Nat), s.cfg.WellFormed → s.ovfPend = false →
    ∃ t, runOps (.edge :: List.replicate n .captick) s = .next t ∧
      t.capCnt = n % s.cfg.capPeriod ∧ (t.ovfPend = true ↔ s.cfg.capPeriod ≤ n) ∧
      t.capLatch = s.capCnt ∧ t.edgePend = true ∧
      ∃ u, exec .edge t = .next u ∧ u.capLatch = n % s.cfg.capPeriod

/-- R112: after any run without a further EDGE or RESET, whatever else happens in it, an overflow event has happened since the
EDGE (or RESET) iff at least CAP_PERIOD CAPTICKs have; OVF_PEND is then set unless a TOVF has serviced one. The count, and
with it the next latched duration, is the number of CAPTICKs mod CAP_PERIOD (R113). -/
def Obligations.OverflowsCountTheTicksOfAnyRun : Prop :=
  ∀ (s t : State) (i : Instr) (ops : List Instr), s.cfg.WellFormed → i = .edge ∨ i = .reset →
    .edge ∉ ops → .reset ∉ ops → runOps (i :: ops) s = .next t →
    (0 < overflows (i :: ops) s ↔ s.cfg.capPeriod ≤ ops.count .captick) ∧
    overflows (i :: ops) s = ops.count .captick / s.cfg.capPeriod ∧
    (.tovf ∉ ops →
      (t.ovfPend = true ↔ (i = .edge ∧ s.ovfPend = true) ∨ s.cfg.capPeriod ≤ ops.count .captick)) ∧
    t.capCnt = ops.count .captick % s.cfg.capPeriod ∧
    ∃ u, exec .edge t = .next u ∧ u.capLatch = ops.count .captick % s.cfg.capPeriod

/-- R114: at the last count CAPTICK and EDGE complete in either order, with the two results of test vectors V-C7a and
V-C7b. -/
def Obligations.EdgeAndWrapInEitherOrder : Prop :=
  ∀ s : State, s.cfg.WellFormed → s.capCnt = s.cfg.capPeriod - 1 →
    (∃ t, runOps [.captick, .edge] s = .next t ∧ t.ovfPend = true ∧ t.capLatch = 0 ∧ t.capCnt = 0 ∧
      t.edgePend = true) ∧
    ∃ u, runOps [.edge, .captick] s = .next u ∧ u.ovfPend = s.ovfPend ∧ u.capLatch = s.cfg.capPeriod - 1 ∧
      u.capCnt = 1 ∧ u.edgePend = true

/-! ### The estimator -/

/-- R130: TEDGE completes from every state with EDGE_PEND set and a history of `L` entries, with the six steps of the rule;
nothing else changes. With EDGE_PEND clear it is not enabled. -/
def Obligations.TedgeServicesACapturedEdge : Prop :=
  encode .tedge = 0x1200000000000000 ∧
  ∀ s : State,
    (s.edgePend = false → exec .tedge s = .fault (.notEnabled .tedge)) ∧
    (s.edgePend = true → s.hist.length = s.cfg.histLen → 3 ≤ s.cfg.histLen →
      ∃ t, exec .tedge s = .next t ∧
        t.edgePend = false ∧
        t.hist.length = s.cfg.histLen ∧
        (∀ j, j + 1 < s.cfg.histLen → t.hist.getD j 0 = s.hist.getD (j + 1) 0) ∧
        t.hist.getD (s.cfg.histLen - 1) 0 = s.capLatch ∧
        (s.cfg.confThreshold < confidence (rank s.cfg t.hist) ∧
            (rank s.cfg t.hist).best ≠ (s.phase + 1) % s.cfg.magnets →
          t.phase = (rank s.cfg t.hist).best) ∧
        (¬(s.cfg.confThreshold < confidence (rank s.cfg t.hist) ∧
            (rank s.cfg t.hist).best ≠ (s.phase + 1) % s.cfg.magnets) →
          t.phase = (s.phase + 1) % s.cfg.magnets) ∧
        (s.ovf = true → t.freq = 0) ∧
        (s.ovf = false → t.freq.toNat = freqCalc s.cfg (arcAt s.cfg t.phase) s.capLatch) ∧
        t.ovf = false ∧
        t.capCnt = s.capCnt ∧ t.capLatch = s.capLatch ∧ t.ovfPend = s.ovfPend ∧
        keepsInputs s t ∧ keepsColor s t ∧ keepsTbuf s t ∧ keepsEncoder s t ∧ keepsEngine s t ∧
        keepsWire s t ∧ keepsResponses s t)

/-- R131: TOVF completes from every state with OVF_PEND set, clears it, sets OVF and zeroes FREQ; nothing else changes. With
OVF_PEND clear it is not enabled. -/
def Obligations.TovfServicesAnOverflow : Prop :=
  encode .tovf = 0x1300000000000000 ∧
  ∀ s : State,
    (s.ovfPend = false → exec .tovf s = .fault (.notEnabled .tovf)) ∧
    (s.ovfPend = true →
      ∃ t, exec .tovf s = .next t ∧
        t.ovfPend = false ∧ t.ovf = true ∧ t.freq = 0 ∧ t.hist = s.hist ∧ t.phase = s.phase ∧
        t.capCnt = s.capCnt ∧ t.capLatch = s.capLatch ∧ t.edgePend = s.edgePend ∧
        keepsInputs s t ∧ keepsColor s t ∧ keepsTbuf s t ∧ keepsEncoder s t ∧ keepsEngine s t ∧
        keepsWire s t ∧ keepsResponses s t)

/-- R140: the arc of sample `j` under candidate `c` is `(c - (L-1-j)) mod M`, an index of the table, and `(c + j + 1) mod M`
when `L = M`. -/
def Obligations.SamplesMapToConsecutiveArcs : Prop :=
  ∀ (c : Config) (cand j : Nat), c.WellFormed → cand < c.magnets → j < c.histLen →
    (arcIndex c cand j : Int) = ((cand : Int) - ((c.histLen : Int) - 1 - j)) % (c.magnets : Int) ∧
    arcIndex c cand j < c.magnets ∧
    (c.histLen = c.magnets → arcIndex c cand j = (cand + j + 1) % c.magnets)

/-- R141 to R145: the deviations and scores computed over natural numbers are the rational ones of the rules, for every
configuration, history, candidate and sample. -/
def Obligations.ScoresAreExact : Prop :=
  ∀ (c : Config) (hist : List Nat) (cand : Nat), c.WellFormed →
    (∀ j < c.histLen, deviation c hist cand j = Exact.deviation c hist cand j) ∧
    score c hist cand = Exact.score c hist cand ∧ score c hist cand ≤ scoreMax

/-- R142 to R144: the anchor span is the sum of the samples after the first; the place of a sample between the anchors is in
`[0, 1]`, so the trend lies between the two anchor frequencies and is not negative; and the deviation is 0 at the first
anchor, and at the last when the span is positive. -/
def Obligations.TrendStaysBetweenItsAnchors : Prop :=
  ∀ (c : Config) (hist : List Nat) (cand j : Nat), c.WellFormed → j < c.histLen →
    Exact.span c hist = ∑ i ∈ Finset.Ico 1 c.histLen, (hist.getD i 0 : ℚ) ∧
    0 ≤ Exact.lam c hist j ∧ Exact.lam c hist j ≤ 1 ∧
    min (Exact.f c hist cand 0) (Exact.f c hist cand (c.histLen - 1)) ≤ Exact.trend c hist cand j ∧
    Exact.trend c hist cand j ≤ max (Exact.f c hist cand 0) (Exact.f c hist cand (c.histLen - 1)) ∧
    0 ≤ Exact.trend c hist cand j ∧
    deviation c hist cand 0 = 0 ∧ (0 < Exact.span c hist → deviation c hist cand (c.histLen - 1) = 0)

/-- R146: RANK gives the least index among the minima, the minimum, and the minimum over the other candidates; the
confidence follows from them, and is 0 on a tie. -/
def Obligations.RankFindsBestAndSecondBest : Prop :=
  ∀ (c : Config) (hist : List Nat), c.WellFormed →
    (rank c hist).best < c.magnets ∧
    score c hist (rank c hist).best = (rank c hist).s1 ∧
    (∀ k < c.magnets, (rank c hist).s1 ≤ score c hist k) ∧
    (∀ k < (rank c hist).best, (rank c hist).s1 < score c hist k) ∧
    (∃ k < c.magnets, k ≠ (rank c hist).best ∧ score c hist k = (rank c hist).s2) ∧
    (∀ k < c.magnets, k ≠ (rank c hist).best → (rank c hist).s2 ≤ score c hist k) ∧
    (confidence (rank c hist) : Int) =
      ⌊(100 : ℚ) * (((rank c hist).s2 : ℚ) - (rank c hist).s1) / (((rank c hist).s1 : ℚ) + 1)⌋ ∧
    ((∃ k < c.magnets, k ≠ (rank c hist).best ∧ score c hist k = (rank c hist).s1) → confidence (rank c hist) = 0)

/-- R147: FREQCALC over the rationals, with its sentinel, its lower clamp and its saturation. -/
def Obligations.FrequencyIsExact : Prop :=
  ∀ (c : Config) (a d : Nat), c.WellFormed →
    (d = 0 → freqCalc c a d = 2 ^ 32 - 1) ∧
    (0 < d → freqCalc c a d =
      min (2 ^ 32 - 1) (max 1 ⌊((a : ℚ) * c.freqNum) / ((d : ℚ) * c.magnets * c.freqDen)⌋₊))

/-- R152: no quotient of the estimator has a zero divisor, whatever the table, the history and the duration. -/
def Obligations.EstimatorNeverDividesByZero : Prop :=
  ∀ (c : Config) (hist : List Nat) (cand j d : Nat), c.WellFormed →
    0 < (impliedFreq c hist cand j).den ∧
    0 < (trend c hist cand j).den ∧
    ((trend c hist cand j).num ≠ 0 → 0 < (trend c hist cand j).num * (impliedFreq c hist cand j).den) ∧
    0 < (rank c hist).s1 + 1 ∧
    (d ≠ 0 → 0 < d * c.magnets * c.freqDen)

/-- R149: durations exactly proportional to the arcs of a candidate give it score 0; if every other candidate scores at least
2, it is the best with a confidence of at least 200; and with `CONF_THRESHOLD = 150` TEDGE then takes it as the phase
from any previous phase. -/
def Obligations.ProportionalDurationsResynchronise : Prop :=
  (∀ (c : Config) (hist : List Nat) (cand : Nat) (r : ℚ), c.WellFormed → cand < c.magnets → 0 < r →
    (∀ j < c.histLen, 1 ≤ hist.getD j 0 ∧ (arcAt c (arcIndex c cand j) : ℚ) = r * (hist.getD j 0 : ℚ)) →
    score c hist cand = 0 ∧
    ((∀ k < c.magnets, k ≠ cand → 2 ≤ score c hist k) →
      (rank c hist).best = cand ∧ confidence (rank c hist) = 100 * (rank c hist).s2 ∧
        200 ≤ confidence (rank c hist))) ∧
  (∀ (s : State) (cand : Nat) (r : ℚ), s.cfg.WellFormed → s.cfg.confThreshold = 150 → s.edgePend = true →
    cand < s.cfg.magnets → 0 < r →
    (∀ j < s.cfg.histLen, 1 ≤ (pushHist s.hist s.capLatch).getD j 0 ∧
      (arcAt s.cfg (arcIndex s.cfg cand j) : ℚ) = r * ((pushHist s.hist s.capLatch).getD j 0 : ℚ)) →
    (∀ k < s.cfg.magnets, k ≠ cand → 2 ≤ score s.cfg (pushHist s.hist s.capLatch) k) →
    ∃ t, exec .tedge s = .next t ∧ t.phase = cand)

/-- R150: what FREQ and OVF say of each other and of the last estimator step, from every state where they agree, over every
operation; and they agree after RESET. -/
def Obligations.FrequencyAndOverflowAgree : Prop :=
  (∀ c : Config, freqOvfRelation false (State.resetWith c)) ∧
  ∀ (i : Instr) (s t : State) (first : Bool),
    freqOvfRelation first s → exec i s = .next t → freqOvfRelation (firstEdgeAfter i s first) t

/-- R151: captures of the durations `ds` (each below CAP_PERIOD) from a cleared counter leave the last `L` of the old history
followed by `ds`, oldest first. -/
def Obligations.HistoryHoldsTheLastDurations : Prop :=
  ∀ (s : State) (ds : List Nat), s.cfg.WellFormed → s.capCnt = 0 → s.hist.length = s.cfg.histLen →
    (∀ d ∈ ds, d < s.cfg.capPeriod) →
    ∃ t, runOps (ds.flatMap fun d => List.replicate d .captick ++ [.edge, .tedge]) s = .next t ∧
      t.hist = (s.hist ++ ds).drop ds.length ∧ t.hist.length = s.cfg.histLen ∧ t.capCnt = 0

/-- R151: after any run from RESET, whatever else happens in it, `HIST[L-1-k]` is the duration of the `(n-k)`-th of its `n`
TEDGEs for `k < min(n, L)` and 0 for `k >= n`; and from any state the history is the last `L` of the old history
followed by the serviced durations. -/
def Obligations.HistoryHoldsTheServicedDurationsOfAnyRun : Prop :=
  (∀ (s t : State) (ops : List Instr), s.cfg.WellFormed → .reset ∉ ops → runOps (.reset :: ops) s = .next t →
    (servicedDurations (.reset :: ops) s).length = ops.count .tedge ∧
    t.hist.length = s.cfg.histLen ∧
    ∀ k < s.cfg.histLen,
      (k < ops.count .tedge →
        t.hist[s.cfg.histLen - 1 - k]? = (servicedDurations (.reset :: ops) s)[ops.count .tedge - 1 - k]?) ∧
      (ops.count .tedge ≤ k → t.hist[s.cfg.histLen - 1 - k]? = some 0)) ∧
  ∀ (s t : State) (ops : List Instr), s.cfg.WellFormed → s.hist.length = s.cfg.histLen → .reset ∉ ops →
    runOps ops s = .next t →
    t.hist = (s.hist ++ servicedDurations ops s).drop (servicedDurations ops s).length

/-- R312: under SERVICE no edge and no overflow is dropped: in any run without RESET from a state where nothing waits, the
durations serviced are the durations captured, in order, but for one that still waits; and the services happen in the
order of arrival (R264). -/
def Obligations.ServiceDropsNoEvent : Prop :=
  ∀ (s t : State) (ops : List Instr), s.edgePend = false → s.ovfPend = false → .reset ∉ ops →
    runOps ops s = .next t → runMeets serviceMet ops s →
    capturedDurations ops s = servicedDurations ops s ++ (if t.edgePend then [t.capLatch] else []) ∧
    arrivals ops s = services ops s ++ waiting t

/-- R154: two states that agree on the configuration, the capture front end and the estimator agree on them after any
operation, and enable the same operations of the two agents. -/
def Obligations.EstimatorIsIsolated : Prop :=
  ∀ (i : Instr) (s s' : State), s'.cfg = s.cfg → keepsCapture s s' → keepsEstimator s s' →
    (∀ t t', exec i s = .next t → exec i s' = .next t' →
      t'.cfg = t.cfg ∧ keepsCapture t t' ∧ keepsEstimator t t') ∧
    (i = .captick ∨ i = .edge ∨ i = .tedge ∨ i = .tovf →
      ((∃ t, exec i s = .next t) ↔ ∃ t', exec i s' = .next t'))

/-- R264: with both tachometer events pending, either may be serviced first; the history and the phase come out the same,
FREQ is 0, and OVF tells the order. -/
def Obligations.TachometerEventsInEitherOrder : Prop :=
  ∀ s : State, s.edgePend = true → s.ovfPend = true →
    ∃ t u, runOps [.tovf, .tedge] s = .next t ∧ runOps [.tedge, .tovf] s = .next u ∧
      t.freq = 0 ∧ t.ovf = false ∧ u.freq = 0 ∧ u.ovf = true ∧ t.phase = u.phase ∧ t.hist = u.hist ∧
      t.edgePend = false ∧ t.ovfPend = false ∧ u.edgePend = false ∧ u.ovfPend = false

/-! ### The encoder -/

/-- R170: EHT completes from every state with HT_PEND set and ENC_BUSY clear and begins refilling bank 0; nothing else
changes. Otherwise it is not enabled. -/
def Obligations.EhtBeginsBankZero : Prop :=
  encode .eht = 0x2100000000000000 ∧
  ∀ s : State,
    (s.htPend = false ∨ s.encBusy = true → exec .eht s = .fault (.notEnabled .eht)) ∧
    (s.htPend = true → s.encBusy = false →
      ∃ t, exec .eht s = .next t ∧
        t.htPend = false ∧ t.encBusy = true ∧ t.encBank = .bank0 ∧ t.encK = 0 ∧
        t.encCursor = s.encCursor ∧ t.encWord = s.encWord ∧
        t.run = s.run ∧ t.htEn = s.htEn ∧ t.tcEn = s.tcEn ∧ t.tcPend = s.tcPend ∧ t.dmaPos = s.dmaPos ∧
        keepsInputs s t ∧ keepsCapture s t ∧ keepsEstimator s t ∧ keepsColor s t ∧ keepsTbuf s t ∧
        keepsWire s t ∧ keepsResponses s t)

/-- R171: ETC completes from every state with TC_PEND set and ENC_BUSY clear and begins refilling bank 1; nothing else
changes. Otherwise it is not enabled. -/
def Obligations.EtcBeginsBankOne : Prop :=
  encode .etc = 0x2200000000000000 ∧
  ∀ s : State,
    (s.tcPend = false ∨ s.encBusy = true → exec .etc s = .fault (.notEnabled .etc)) ∧
    (s.tcPend = true → s.encBusy = false →
      ∃ t, exec .etc s = .next t ∧
        t.tcPend = false ∧ t.encBusy = true ∧ t.encBank = .bank1 ∧ t.encK = 0 ∧
        t.encCursor = s.encCursor ∧ t.encWord = s.encWord ∧
        t.run = s.run ∧ t.htEn = s.htEn ∧ t.tcEn = s.tcEn ∧ t.htPend = s.htPend ∧ t.dmaPos = s.dmaPos ∧
        keepsInputs s t ∧ keepsCapture s t ∧ keepsEstimator s t ∧ keepsColor s t ∧ keepsTbuf s t ∧
        keepsWire s t ∧ keepsResponses s t)

/-- R172: ESYM completes from every state with ENC_BUSY set: it latches the colour at a colour slot's first symbol, writes
one position of TBUF, advances the cursor after the 24th symbol and ends the refill after the bank's last; nothing
else changes. With ENC_BUSY clear it is not enabled. -/
def Obligations.EsymWritesOneSymbol : Prop :=
  encode .esym = 0x2300000000000000 ∧
  ∀ s : State,
    (s.encBusy = false → exec .esym s = .fault (.notEnabled .esym)) ∧
    (s.encBusy = true →
      ∃ t, exec .esym s = .next t ∧
        (s.encK % 24 = 0 ∧ s.encCursor < s.cfg.ledCount →
          t.encWord = (s.colorRead s.encCursor).setWidth 24) ∧
        (¬(s.encK % 24 = 0 ∧ s.encCursor < s.cfg.ledCount) → t.encWord = s.encWord) ∧
        t.tbufRead (bankBase s.cfg s.encBank + s.encK) =
          symbolOf s.cfg s.encCursor (23 - s.encK % 24) t.encWord ∧
        (∀ q, q ≠ bankBase s.cfg s.encBank + s.encK → t.tbufRead q = s.tbufRead q) ∧
        (s.encK % 24 = 23 → t.encCursor = (s.encCursor + 1) % slots s.cfg) ∧
        (s.encK % 24 ≠ 23 → t.encCursor = s.encCursor) ∧
        (s.encK = bankSyms s.cfg - 1 → t.encK = 0 ∧ t.encBusy = false) ∧
        (s.encK ≠ bankSyms s.cfg - 1 → t.encK = s.encK + 1 ∧ t.encBusy = true) ∧
        t.encBank = s.encBank ∧
        keepsInputs s t ∧ keepsCapture s t ∧ keepsEstimator s t ∧ keepsColor s t ∧ keepsEngine s t ∧
        keepsWire s t ∧ keepsResponses s t)

/-- R173: the symbol of a bit is GAP_SYM = 0 in a gap slot, and DUTY1 or DUTY0 by the latched bit in a colour slot. -/
def Obligations.SymbolOfEachBit : Prop :=
  ∀ (c : Config) (s b : Nat) (w : ColorBits), c.WellFormed →
    (c.ledCount ≤ s → symbolOf c s b w = 0) ∧
    (s < c.ledCount → w.getLsbD b = true → (symbolOf c s b w).toNat = c.duty1) ∧
    (s < c.ledCount → w.getLsbD b = false → (symbolOf c s b w).toNat = c.duty0)

/-- R80, R174: the symbol due at place `k` of a colour slot is that of green bit `7-k`, then of blue bit `15-k`, then of red
bit `23-k`, of the word in the colour buffer; its bits [31:24] have no effect. -/
def Obligations.SlotOrderIsGreenBlueRed : Prop :=
  ∀ (s : State) (slot k : Nat), slot < s.cfg.ledCount → k < 24 →
    slotSymbol s slot k = bitSym s.cfg
      (if k < 8 then ((s.colorRead slot).extractLsb' 16 8).getLsbD (7 - k)
       else if k < 16 then ((s.colorRead slot).extractLsb' 8 8).getLsbD (15 - k)
       else ((s.colorRead slot).extractLsb' 0 8).getLsbD (23 - k))

/-- R65, R172: a WRCOLOR after a slot's first ESYM changes neither the symbol the next ESYM of that slot writes nor the
latched colour. -/
def Obligations.SlotIsNotTornByAColourWrite : Prop :=
  ∀ (s : State) (i : BitVec 24) (w : ColorWord), s.encBusy = true → s.encK % 24 ≠ 0 → i.toNat < s.cfg.ledCount →
    ∃ t u, exec .esym s = .next t ∧ runOps [.wrcolor i w, .esym] s = .next u ∧
      (∀ q, u.tbufRead q = t.tbufRead q) ∧ u.encWord = t.encWord ∧ u.encCursor = t.encCursor ∧ u.encK = t.encK

/-- R262: one notification at a time; with both pending either may be taken first, the other staying pending; and a
notification raised while its bit is set leaves it set. -/
def Obligations.NotificationsAreServicedOneAtATime : Prop :=
  (∀ s : State, s.encBusy = true →
    exec .eht s = .fault (.notEnabled .eht) ∧ exec .etc s = .fault (.notEnabled .etc)) ∧
  (∀ s : State, s.encBusy = false → s.htPend = true → s.tcPend = true →
    ∃ t u, exec .eht s = .next t ∧ t.htPend = false ∧ t.tcPend = true ∧
      exec .etc s = .next u ∧ u.tcPend = false ∧ u.htPend = true) ∧
  (∀ s : State, s.run = true → s.htPend = true → s.tcPend = true →
    ∃ t, exec .period s = .next t ∧ t.htPend = true ∧ t.tcPend = true)

/-- R314: a repopulation takes exactly BANK_SYMS ESYM steps, waiting on no agent; then the bank holds the next `B` slots of
the frame from the cursor on, the cursor has advanced by `B` mod SLOTS, and the other bank is untouched. -/
def Obligations.RefillFillsTheBank : Prop :=
  ∀ s : State, s.cfg.WellFormed → s.encBusy = true → s.encK = 0 → s.encCursor < slots s.cfg →
    (∀ n < bankSyms s.cfg, ∃ t, runOps (List.replicate n .esym) s = .next t ∧ t.encBusy = true ∧ t.encK = n) ∧
    ∃ t, runOps (List.replicate (bankSyms s.cfg) .esym) s = .next t ∧
      t.encBusy = false ∧ t.encK = 0 ∧ t.encBank = s.encBank ∧
      t.encCursor = (s.encCursor + bankSlots s.cfg) % slots s.cfg ∧
      (∀ k < bankSyms s.cfg, t.tbufRead (bankBase s.cfg s.encBank + k) =
        slotSymbol s ((s.encCursor + k / 24) % slots s.cfg) (k % 24)) ∧
      (∀ q, q < bankBase s.cfg s.encBank ∨ bankBase s.cfg s.encBank + bankSyms s.cfg ≤ q →
        t.tbufRead q = s.tbufRead q) ∧
      keepsInputs s t ∧ keepsCapture s t ∧ keepsEstimator s t ∧ keepsColor s t ∧ keepsEngine s t ∧
      keepsWire s t ∧ keepsResponses s t

/-! ### The transfer engine -/

/-- R200: PERIOD completes from every state with RUN set: it emits the symbol at DMA_POS, raises each armed notification after
the last symbol of its bank and advances circularly; nothing else but the line changes. With RUN clear it is not
enabled. -/
def Obligations.PeriodEmitsOneSymbol : Prop :=
  encode .period = 0x2000000000000000 ∧
  ∀ s : State,
    (s.run = false → exec .period s = .fault (.notEnabled .period)) ∧
    (s.run = true →
      ∃ t, exec .period s = .next t ∧
        t.wire = s.wire ++ [s.tbufRead s.dmaPos] ∧
        (s.dmaPos = bankSyms s.cfg - 1 ∧ s.htEn = true → t.htPend = true) ∧
        (¬(s.dmaPos = bankSyms s.cfg - 1 ∧ s.htEn = true) → t.htPend = s.htPend) ∧
        (s.dmaPos = tbufSyms s.cfg - 1 ∧ s.tcEn = true → t.tcPend = true) ∧
        (¬(s.dmaPos = tbufSyms s.cfg - 1 ∧ s.tcEn = true) → t.tcPend = s.tcPend) ∧
        t.dmaPos = (s.dmaPos + 1) % tbufSyms s.cfg ∧
        t.run = s.run ∧ t.htEn = s.htEn ∧ t.tcEn = s.tcEn ∧
        keepsInputs s t ∧ keepsCapture s t ∧ keepsEstimator s t ∧ keepsColor s t ∧ keepsTbuf s t ∧
        keepsEncoder s t ∧ keepsResponses s t)

/-- R201: `n` bit periods emit the next `n` positions circularly and raise each notification iff its position is among them;
a full cycle meets each notification's position exactly once. -/
def Obligations.PeriodsRunCircularly : Prop :=
  ∀ s : State, s.cfg.WellFormed → s.run = true → s.htEn = true → s.tcEn = true → s.dmaPos < tbufSyms s.cfg →
    (∀ n, ∃ t, runOps (List.replicate n .period) s = .next t ∧
      t.dmaPos = (s.dmaPos + n) % tbufSyms s.cfg ∧
      t.wire = s.wire ++ (List.range n).map (fun i => s.tbufRead ((s.dmaPos + i) % tbufSyms s.cfg)) ∧
      (t.htPend = true ↔ s.htPend = true ∨ ∃ i < n, (s.dmaPos + i) % tbufSyms s.cfg = bankSyms s.cfg - 1) ∧
      (t.tcPend = true ↔ s.tcPend = true ∨ ∃ i < n, (s.dmaPos + i) % tbufSyms s.cfg = tbufSyms s.cfg - 1)) ∧
    (∃! i, i < tbufSyms s.cfg ∧ (s.dmaPos + i) % tbufSyms s.cfg = bankSyms s.cfg - 1) ∧
    ∃! i, i < tbufSyms s.cfg ∧ (s.dmaPos + i) % tbufSyms s.cfg = tbufSyms s.cfg - 1

/-- R203: a symbol's waveform lasts `P` ticks, the first `min(s, P)` high and the rest low; the gap symbol stays low
throughout, and the pulses of the two bits last DUTY0 and DUTY1 ticks. That a pulse is high first and low after is, as R203
says, general knowledge and not the source's; and that the line ends the period at the waveform's last level, levelAfter,
is the model's own reading (log entry 11, PRESUMED). -/
def Obligations.WaveformOfASymbol : Prop :=
  ∀ (c : Config) (sym : Symbol), c.WellFormed →
    (waveform c sym).length = c.periodTicks ∧
    (∀ k < c.periodTicks, (waveform c sym)[k]? = some (if k < min sym.toNat c.periodTicks then Level.high else .low)) ∧
    (waveform c sym).getLast? = some (levelAfter c sym) ∧
    (∀ l ∈ waveform c gapSym, l = Level.low) ∧
    (waveform c (bitSym c false)).count .high = c.duty0 ∧ (waveform c (bitSym c true)).count .high = c.duty1

/-- R70: underruns are admitted: under every well-formed configuration some run from RESET reaches a state in which PERIOD
reads a position of bank ENC_BANK while ENC_BUSY is set, and completes, with whatever TBUF holds there. -/
def Obligations.UnderrunsAreAdmitted : Prop :=
  ∀ c : Config, c.WellFormed →
    ∃ (ops : List Instr) (u t : State), runOps (.start :: ops) (State.resetWith c) = .next u ∧
      u.encBusy = true ∧ live u.cfg u.dmaPos = u.encBank.index ∧
      exec .period u = .next t ∧ t.wire = u.wire ++ [u.tbufRead u.dmaPos]

/-! ### Reset and the host -/

/-- R230, R49: RESET completes from every state and gives every element its reset value, with the configuration unchanged;
and STATUS is then 0x001 and RDSNAP returns 0x0001_0000_0000_0000. COLOR and TBUF hold free values then, of which nothing
is said (log entry 5). That the rest of the trace (log entry 3), the responses (log entry 4) and WIRE (log entry 12, where
R43 leaves the choice) are kept is the model's choice, each a DESIGN CHOICE. -/
def Obligations.ResetGivesEveryElementItsValue : Prop :=
  encode .reset = 0x0100000000000000 ∧
  ∀ s : State, ∃ t, exec .reset s = .next t ∧
    t.capCnt = 0 ∧ t.capLatch = 0 ∧ t.edgePend = false ∧ t.ovfPend = false ∧
    t.hist.length = s.cfg.histLen ∧ (∀ d ∈ t.hist, d = 0) ∧ t.phase = 0 ∧ t.freq = 0 ∧ t.ovf = true ∧
    t.encBusy = false ∧ t.encBank = .bank0 ∧ t.encK = 0 ∧ t.encCursor = 0 ∧ t.encWord = 0 ∧
    t.run = false ∧ t.htEn = false ∧ t.tcEn = false ∧ t.htPend = false ∧ t.tcPend = false ∧ t.dmaPos = 0 ∧
    t.line = .low ∧ t.wire = s.wire ∧ t.cfg = s.cfg ∧ t.trace = s.trace ∧ t.responses = s.responses ∧
    t.status = 0x001 ∧
    ∃ u, exec .rdsnap t = .next u ∧ u.responses = s.responses ++ [.snap 0x0001000000000000]

/-- R231: START completes from every state with a well-formed configuration. While running it changes nothing. Otherwise every position of TBUF gets the symbol
of its slot, slots 0 .. 2B-1 mod SLOTS in order, both notifications are armed and clear, and the engine runs from
position 0; nothing else changes. -/
def Obligations.StartPrefillsAndRuns : Prop :=
  encode .start = 0x0200000000000000 ∧
  ∀ s : State, s.cfg.WellFormed →
    (s.run = true → exec .start s = .next s) ∧
    (s.run = false →
      ∃ t, exec .start s = .next t ∧
        (∀ q < tbufSyms s.cfg, t.tbufRead q = slotSymbol s (q / 24 % slots s.cfg) (q % 24)) ∧
        (∀ q, tbufSyms s.cfg ≤ q → t.tbufRead q = s.tbufRead q) ∧
        t.encCursor = 2 * bankSlots s.cfg % slots s.cfg ∧
        t.encBusy = false ∧ t.encK = 0 ∧ t.encBank = .bank1 ∧
        t.encWord = (s.colorRead (if slots s.cfg % 2 = 0 then s.cfg.ledCount - 1 else 0)).setWidth 24 ∧
        t.htPend = false ∧ t.tcPend = false ∧ t.htEn = true ∧ t.tcEn = true ∧ t.dmaPos = 0 ∧ t.run = true ∧
        keepsInputs s t ∧ keepsCapture s t ∧ keepsEstimator s t ∧ keepsColor s t ∧ keepsWire s t ∧
        keepsResponses s t)

/-- R232: WRCOLOR writes all 32 bits of one colour word and nothing else, for an index below `N`; for any other index it
raises HostIndexRange. -/
def Obligations.WrcolorWritesOneWord : Prop :=
  ∀ (i : BitVec 24) (w : ColorWord),
    (opField (encode (.wrcolor i w)) = 0x03 ∧ aField (encode (.wrcolor i w)) = i ∧
      bField (encode (.wrcolor i w)) = w) ∧
    ∀ s : State,
      (s.cfg.ledCount ≤ i.toNat → exec (.wrcolor i w) s = .fault .hostIndexRange) ∧
      (i.toNat < s.cfg.ledCount →
        ∃ t, exec (.wrcolor i w) s = .next t ∧
          t.colorRead i.toNat = w ∧ (∀ j, j ≠ i.toNat → t.colorRead j = s.colorRead j) ∧
          keepsInputs s t ∧ keepsCapture s t ∧ keepsEstimator s t ∧ keepsTbuf s t ∧ keepsEncoder s t ∧
          keepsEngine s t ∧ keepsWire s t ∧ keepsResponses s t)

/-- R233, R84: RDCOLOR returns the colour word of an index below `N` and changes nothing else; for any other index it
raises HostIndexRange; and a WRCOLOR of the same index is what it returns. -/
def Obligations.RdcolorReturnsTheWord : Prop :=
  ∀ i : BitVec 24,
    (opField (encode (.rdcolor i)) = 0x04 ∧ aField (encode (.rdcolor i)) = i ∧ bField (encode (.rdcolor i)) = 0) ∧
    ∀ s : State,
      (s.cfg.ledCount ≤ i.toNat → exec (.rdcolor i) s = .fault .hostIndexRange) ∧
      (i.toNat < s.cfg.ledCount →
        (∃ t, exec (.rdcolor i) s = .next t ∧
          t.responses = s.responses ++ [.color (s.colorRead i.toNat)] ∧
          keepsInputs s t ∧ keepsCapture s t ∧ keepsEstimator s t ∧ keepsColor s t ∧ keepsTbuf s t ∧
          keepsEncoder s t ∧ keepsEngine s t ∧ keepsWire s t) ∧
        ∀ w : ColorWord, ∃ u, runOps [.wrcolor i w, .rdcolor i] s = .next u ∧
          u.responses = s.responses ++ [.color w])

/-- R234, R83: RDSNAP completes from every state and returns FREQ in [31:0], PHASE in [47:32], OVF in [48] and zeros above, all
of one moment, changing nothing else. -/
def Obligations.RdsnapReturnsTheSnapshot : Prop :=
  encode .rdsnap = 0x0500000000000000 ∧
  ∀ s : State,
    ∃ (t : State) (r : BitVec 64), exec .rdsnap s = .next t ∧ t.responses = s.responses ++ [.snap r] ∧
      r.extractLsb' 0 32 = s.freq ∧
      (s.cfg.WellFormed → s.phase < s.cfg.magnets → (r.extractLsb' 32 16).toNat = s.phase) ∧
      r.getLsbD 48 = s.ovf ∧ r.extractLsb' 49 15 = 0 ∧
      keepsInputs s t ∧ keepsCapture s t ∧ keepsEstimator s t ∧ keepsColor s t ∧ keepsTbuf s t ∧
      keepsEncoder s t ∧ keepsEngine s t ∧ keepsWire s t

/-- R45: the ten bits of the trace word STATUS. -/
def Obligations.StatusCollectsTheFlags : Prop :=
  ∀ s : State,
    s.status.getLsbD 0 = s.ovf ∧ s.status.getLsbD 1 = s.edgePend ∧ s.status.getLsbD 2 = s.ovfPend ∧
    s.status.getLsbD 3 = s.htPend ∧ s.status.getLsbD 4 = s.tcPend ∧ s.status.getLsbD 5 = s.htEn ∧
    s.status.getLsbD 6 = s.tcEn ∧ s.status.getLsbD 7 = s.run ∧ s.status.getLsbD 8 = s.encBusy ∧
    (s.status.getLsbD 9 = true ↔ s.encBank = .bank1)

/-! ### The whole machine -/

/-- The block after reset meets the invariant, under every well-formed configuration (R49). -/
def Obligations.ResetMeetsTheInvariant : Prop :=
  (∀ c : Config, c.WellFormed → (State.resetWith c).Inv) ∧ State.reset.Inv

/-- Every step keeps the invariant: every counter and index in its range (R21 to R41, R62), the storage spaces canonical,
OVF with FREQ = 0 (R150), the arming bits with RUN (R39), and only the block's three symbols on WIRE and in the written
part of TBUF, none of them a reset draw while the engine runs (R81, R32). The storage spaces' canonical form is the
model's (log entry 6, DESIGN CHOICE), and so is the line's level between periods, low (log entry 11, PRESUMED). -/
def Obligations.StepKeepsTheInvariant : Prop :=
  ∀ s t : State, s.Inv → step s = .next t → t.Inv

/-- R81: whatever sequence of operations runs from a state that meets the invariant, every symbol on WIRE is DUTY0, DUTY1 or
GAP_SYM. -/
def Obligations.OnlyThreeSymbolsReachTheWire : Prop :=
  ∀ (s t : State) (ops : List Instr), s.Inv → runOps ops s = .next t →
    ∀ v ∈ t.wire, v = 0 ∨ v.toNat = s.cfg.duty0 ∨ v.toNat = s.cfg.duty1

/-- R66, R316: no operation changes the configuration. That an operation keeps the rest of the trace, and that a step takes
one word off it and adds none, is the model's choice (log entry 3, DESIGN CHOICE). -/
def Obligations.ConfigurationNeverChanges : Prop :=
  (∀ (i : Instr) (s t : State), exec i s = .next t → t.cfg = s.cfg ∧ t.trace = s.trace) ∧
  ∀ s t : State, step s = .next t → t.cfg = s.cfg ∧ ∃ w, s.trace = w :: t.trace

/-- R69: each storage element has one writing agent: the operations not named for an element keep it. -/
def Obligations.EachElementHasItsWriters : Prop :=
  ∀ (i : Instr) (s t : State), exec i s = .next t → i ≠ .reset →
    ((∀ idx w, i ≠ .wrcolor idx w) → keepsColor s t) ∧
    (i ≠ .start → i ≠ .esym → keepsTbuf s t) ∧
    (i ≠ .tedge → t.hist = s.hist ∧ t.phase = s.phase) ∧
    (i ≠ .tedge → i ≠ .tovf → t.freq = s.freq ∧ t.ovf = s.ovf) ∧
    (i ≠ .captick → i ≠ .edge → t.capCnt = s.capCnt ∧ t.capLatch = s.capLatch) ∧
    (i ≠ .edge → i ≠ .tedge → t.edgePend = s.edgePend) ∧
    (i ≠ .captick → i ≠ .tovf → t.ovfPend = s.ovfPend) ∧
    (i ≠ .start → i ≠ .eht → i ≠ .etc → i ≠ .esym → keepsEncoder s t) ∧
    (i ≠ .start → i ≠ .period → i ≠ .eht → t.htPend = s.htPend) ∧
    (i ≠ .start → i ≠ .period → i ≠ .etc → t.tcPend = s.tcPend) ∧
    (i ≠ .start → t.run = s.run ∧ t.htEn = s.htEn ∧ t.tcEn = s.tcEn)

/-- R205, R38: only RESET clears RUN, only START sets it, and no operation moves DMA_POS but PERIOD, START and RESET. -/
def Obligations.OnlyResetStopsTheEngine : Prop :=
  ∀ (i : Instr) (s t : State), exec i s = .next t →
    (s.run = true → t.run = false → i = .reset) ∧ (s.run = false → t.run = true → i = .start) ∧
    (t.dmaPos ≠ s.dmaPos → i = .period ∨ i = .start ∨ i = .reset)

/-- R43: WIRE grows by the symbol at DMA_POS at each PERIOD and changes at no other operation. That this holds of RESET too
is the model's choice (log entry 12, DESIGN CHOICE): R43 lets a model start a new observation there. -/
def Obligations.WireGrowsAtPeriodsOnly : Prop :=
  ∀ (i : Instr) (s t : State), exec i s = .next t →
    (i = .period → t.wire = s.wire ++ [s.tbufRead s.dmaPos]) ∧ (i ≠ .period → t.wire = s.wire)

/-- R176 with the service order it needs (log entry 15): from START on, in every interleaving that meets DEADLINE, services
two waiting notifications oldest first and writes no colour, WIRE is the frame of R82 repeated. -/
def Obligations.FramesRepeatUnderDeadline : Prop :=
  ∀ (s t : State) (ops : List Instr), s.cfg.WellFormed → s.run = false →
    runOps (.start :: ops) s = .next t →
    runMeets deadlineMet (.start :: ops) s → runMeets servedInOrder (.start :: ops) s →
    runMeets noColorChange (.start :: ops) s →
    t.wire = s.wire ++ (List.range (ops.count .period)).map (frameSymbol s)

/-- The three conditions that R176 names do not suffice alone: R262 lets ETC be taken before an older EHT, and in some such
run, which does not service the notifications in order, all three hold and WIRE is not the repeated frame (log entry 15,
DEDUCED). -/
def Obligations.SwappedServiceBreaksTheFrame : Prop :=
  ∃ (s t : State) (ops : List Instr), s.cfg.WellFormed ∧ s.run = false ∧
    runOps (.start :: ops) s = .next t ∧
    runMeets deadlineMet (.start :: ops) s ∧ runMeets noLostNotification (.start :: ops) s ∧
    runMeets noColorChange (.start :: ops) s ∧ ¬runMeets servedInOrder (.start :: ops) s ∧
    t.wire ≠ s.wire ++ (List.range (ops.count .period)).map (frameSymbol s)

/-! ### What happens eventually -/

/-- R320: in a run under weak fairness every waiting tachometer event is eventually serviced, unless a RESET clears it.
(Which agent steps weak fairness means is log entry 20, DEDUCED; so in the next three.) -/
def Obligations.FairRunsServiceTheTachometer : Prop :=
  ∀ (op : Nat → Instr) (st : Nat → State) (n : Nat), FairRun op st →
    ((st n).edgePend = true → ∃ m, n ≤ m ∧ (op m = .tedge ∨ op m = .reset)) ∧
    ((st n).ovfPend = true → ∃ m, n ≤ m ∧ (op m = .tovf ∨ op m = .reset))

/-- R320, R314: in a run under weak fairness every refill ends, from every place in a bank. -/
def Obligations.FairRunsEndEveryRefill : Prop :=
  ∀ (op : Nat → Instr) (st : Nat → State) (n : Nat), FairRun op st → (st n).encK < bankSyms (st n).cfg →
    ∃ m, n ≤ m ∧ (st m).encBusy = false

/-- R320, R205: in a run under weak fairness a running engine that no RESET stops emits symbols without end. -/
def Obligations.FairRunsEmitForever : Prop :=
  ∀ (op : Nat → Instr) (st : Nat → State) (n : Nat), FairRun op st → (st n).run = true →
    (∀ m, n ≤ m → op m ≠ .reset) → ∀ len, ∃ m, n ≤ m ∧ len ≤ (st m).wire.length

/-- R320, R112, R131: in a run under weak fairness in which no EDGE happens any more, the dropout is eventually reported and
stays so: OVF = 1 and FREQ = 0. -/
def Obligations.FairRunsReportADropout : Prop :=
  ∀ (op : Nat → Instr) (st : Nat → State) (n : Nat), FairRun op st → (st n).capCnt < (st n).cfg.capPeriod →
    (∀ m, n ≤ m → op m ≠ .edge ∧ op m ≠ .reset) →
    ∃ m, n ≤ m ∧ ∀ k, m ≤ k → (st k).ovf = true ∧ (st k).freq = 0
end

