-- ==== Sys2Proof/Laws/Decode.lean ====
section
/-! SUPPORT. The three fields of an encoded operation are the opcode and the two operands (30_encoding R85). -/

namespace Sys2Proof

/-- The fields of three parts laid side by side. -/
theorem fields_of_append (o : BitVec 8) (a : BitVec 24) (b : BitVec 32) :
    opField (o ++ a ++ b) = o ∧ aField (o ++ a ++ b) = a ∧ bField (o ++ a ++ b) = b := by
  refine ⟨?_, ?_, ?_⟩ <;> refine BitVec.eq_of_getLsbD_eq fun k hk => ?_ <;>
    simp only [opField, aField, bField, BitVec.getLsbD_extractLsb', BitVec.getLsbD_append]
  · simp [hk, show ¬56 + k < 32 by omega, show ¬56 + k - 32 < 24 by omega, show 56 + k - 32 - 24 = k by omega]
  · simp [hk]
  · simp [hk]

/-- A word is its three fields laid side by side. -/
theorem append_of_fields (w : OpWord) : opField w ++ aField w ++ bField w = w := by
  refine BitVec.eq_of_getLsbD_eq fun k hk => ?_
  simp only [opField, aField, bField, BitVec.getLsbD_extractLsb', BitVec.getLsbD_append]
  split
  · simp [*]
  · split
    · simp [*, show 32 + (k - 32) = k by omega]
    · simp [show k - 32 - 24 < 8 by omega, show 56 + (k - 32 - 24) = k by omega]

@[simp] theorem opField_encode (i : Instr) : opField (encode i) = opcodeOf i := (fields_of_append _ _ _).1

@[simp] theorem aField_encode (i : Instr) : aField (encode i) = operandA i := (fields_of_append _ _ _).2.1

@[simp] theorem bField_encode (i : Instr) : bField (encode i) = operandB i := (fields_of_append _ _ _).2.2

end Sys2Proof
end

