-- ==== Sys2Proof/Laws/Memory.lean ====
section
/-! SUPPORT. The laws of a storage space: a read after a write, and that a write keeps the canonical form. -/

namespace Sys2Proof.Machine

variable {w : Nat}

@[simp] theorem Memory.find_nil (i : Nat) : Memory.find ([] : Memory w) i = none := rfl

/-- A read after a write to the same index gives the element written. -/
@[simp] theorem Memory.find_write_same (m : Memory w) (i : Nat) (v : BitVec w) : (m.write i v).find i = some v := by
  induction m with
  | nil => simp [Memory.write, Memory.find]
  | cons e rest ih =>
    obtain ⟨a, x⟩ := e
    simp only [Memory.write]
    split
    · simp [Memory.find]
    · split
      · simp [Memory.find]
      · rename_i h
        simp [Memory.find, Ne.symm h, ih]

/-- A write leaves every other index alone. -/
theorem Memory.find_write_other (m : Memory w) {i j : Nat} (v : BitVec w) (h : j ≠ i) :
    (m.write i v).find j = m.find j := by
  induction m with
  | nil => simp [Memory.write, Memory.find, Ne.symm h]
  | cons e rest ih =>
    obtain ⟨a, x⟩ := e
    simp only [Memory.write]
    split
    · simp [Memory.find, Ne.symm h]
    · split
      · rename_i h2
        subst h2
        simp [Memory.find, Ne.symm h]
      · simp [Memory.find, ih]

/-- What a write can list: the pair written, or a pair that was listed before. -/
theorem Memory.mem_write {m : Memory w} {i : Nat} {v : BitVec w} {e : Nat × BitVec w} (h : e ∈ m.write i v) :
    e = (i, v) ∨ e ∈ m := by
  induction m with
  | nil => simpa [Memory.write] using h
  | cons x rest ih =>
    obtain ⟨a, y⟩ := x
    simp only [Memory.write] at h
    split at h
    · simpa using h
    · split at h
      · simp only [List.mem_cons] at h ⊢
        exact h.imp id Or.inr
      · simp only [List.mem_cons] at h ⊢
        rcases h with h | h
        · exact .inr (.inl h)
        · exact (ih h).imp id Or.inr

/-- An index that is found is listed. -/
theorem Memory.find_mem {m : Memory w} {i : Nat} {v : BitVec w} (h : m.find i = some v) : (i, v) ∈ m := by
  induction m with
  | nil => simp at h
  | cons x rest ih =>
    obtain ⟨a, y⟩ := x
    simp only [Memory.find] at h
    split at h
    · rename_i ha
      cases h
      simp [ha]
    · simp [ih h]

/-- A write inside the space keeps its canonical form. -/
theorem Memory.wf_write {m : Memory w} {size i : Nat} {v : BitVec w} (h : m.wf size) (hi : i < size) :
    (m.write i v).wf size := by
  refine ⟨?_, fun e he => ?_⟩
  · obtain ⟨hp, -⟩ := h
    induction m with
    | nil => simp [Memory.write]
    | cons x rest ih =>
      obtain ⟨a, y⟩ := x
      obtain ⟨hx, hr⟩ := List.pairwise_cons.mp hp
      simp only [Memory.write]
      split
      · rename_i hlt
        refine List.pairwise_cons.mpr ⟨fun e he => ?_, hp⟩
        rcases List.mem_cons.mp he with rfl | he
        · exact hlt
        · exact hlt.trans (hx e he)
      · split
        · rename_i heq
          subst heq
          exact List.pairwise_cons.mpr ⟨hx, hr⟩
        · refine List.pairwise_cons.mpr ⟨fun e he => ?_, ih hr⟩
          rcases Memory.mem_write he with rfl | he
          · show a < i
            omega
          · exact hx e he
  · rcases Memory.mem_write he with rfl | he
    · exact hi
    · exact h.2 e he

/-- The empty space is in canonical form. -/
theorem Memory.wf_nil (size : Nat) : Memory.wf size ([] : Memory w) :=
  ⟨List.Pairwise.nil, by simp⟩

/-- A write never loses a listed index. -/
theorem Memory.find_write_isSome (m : Memory w) (i j : Nat) (v : BitVec w) (h : (m.find j).isSome = true) :
    ((m.write i v).find j).isSome = true := by
  by_cases hj : j = i
  · subst hj
    simp
  · rwa [Memory.find_write_other m v hj]

end Sys2Proof.Machine
end

