-- ==== Sys2Proof/Laws/State.lean ====
section
/-! SUPPORT. Each field of the state after each named update, true by definition, so that no later proof unfolds a
record update. -/

namespace Sys2Proof.Machine

variable (s : State)

/-! ### After `ColorWrite` -/

@[simp] theorem State.colorWrite_cfg (i : Nat) (v : ColorWord) : (s.colorWrite i v).cfg = s.cfg := rfl
@[simp] theorem State.colorWrite_trace (i : Nat) (v : ColorWord) : (s.colorWrite i v).trace = s.trace := rfl
@[simp] theorem State.colorWrite_responses (i : Nat) (v : ColorWord) : (s.colorWrite i v).responses = s.responses := rfl
@[simp] theorem State.colorWrite_draws (i : Nat) (v : ColorWord) : (s.colorWrite i v).draws = s.draws := rfl
@[simp] theorem State.colorWrite_capCnt (i : Nat) (v : ColorWord) : (s.colorWrite i v).capCnt = s.capCnt := rfl
@[simp] theorem State.colorWrite_capLatch (i : Nat) (v : ColorWord) : (s.colorWrite i v).capLatch = s.capLatch := rfl
@[simp] theorem State.colorWrite_edgePend (i : Nat) (v : ColorWord) : (s.colorWrite i v).edgePend = s.edgePend := rfl
@[simp] theorem State.colorWrite_ovfPend (i : Nat) (v : ColorWord) : (s.colorWrite i v).ovfPend = s.ovfPend := rfl
@[simp] theorem State.colorWrite_hist (i : Nat) (v : ColorWord) : (s.colorWrite i v).hist = s.hist := rfl
@[simp] theorem State.colorWrite_phase (i : Nat) (v : ColorWord) : (s.colorWrite i v).phase = s.phase := rfl
@[simp] theorem State.colorWrite_freq (i : Nat) (v : ColorWord) : (s.colorWrite i v).freq = s.freq := rfl
@[simp] theorem State.colorWrite_ovf (i : Nat) (v : ColorWord) : (s.colorWrite i v).ovf = s.ovf := rfl
@[simp] theorem State.colorWrite_color (i : Nat) (v : ColorWord) : (s.colorWrite i v).color = s.color.write i v := rfl
@[simp] theorem State.colorWrite_tbuf (i : Nat) (v : ColorWord) : (s.colorWrite i v).tbuf = s.tbuf := rfl
@[simp] theorem State.colorWrite_encBusy (i : Nat) (v : ColorWord) : (s.colorWrite i v).encBusy = s.encBusy := rfl
@[simp] theorem State.colorWrite_encBank (i : Nat) (v : ColorWord) : (s.colorWrite i v).encBank = s.encBank := rfl
@[simp] theorem State.colorWrite_encK (i : Nat) (v : ColorWord) : (s.colorWrite i v).encK = s.encK := rfl
@[simp] theorem State.colorWrite_encCursor (i : Nat) (v : ColorWord) : (s.colorWrite i v).encCursor = s.encCursor := rfl
@[simp] theorem State.colorWrite_encWord (i : Nat) (v : ColorWord) : (s.colorWrite i v).encWord = s.encWord := rfl
@[simp] theorem State.colorWrite_run (i : Nat) (v : ColorWord) : (s.colorWrite i v).run = s.run := rfl
@[simp] theorem State.colorWrite_htEn (i : Nat) (v : ColorWord) : (s.colorWrite i v).htEn = s.htEn := rfl
@[simp] theorem State.colorWrite_tcEn (i : Nat) (v : ColorWord) : (s.colorWrite i v).tcEn = s.tcEn := rfl
@[simp] theorem State.colorWrite_htPend (i : Nat) (v : ColorWord) : (s.colorWrite i v).htPend = s.htPend := rfl
@[simp] theorem State.colorWrite_tcPend (i : Nat) (v : ColorWord) : (s.colorWrite i v).tcPend = s.tcPend := rfl
@[simp] theorem State.colorWrite_dmaPos (i : Nat) (v : ColorWord) : (s.colorWrite i v).dmaPos = s.dmaPos := rfl
@[simp] theorem State.colorWrite_line (i : Nat) (v : ColorWord) : (s.colorWrite i v).line = s.line := rfl
@[simp] theorem State.colorWrite_wire (i : Nat) (v : ColorWord) : (s.colorWrite i v).wire = s.wire := rfl

/-! ### After `TbufWrite` -/

@[simp] theorem State.tbufWrite_cfg (q : Nat) (v : Symbol) : (s.tbufWrite q v).cfg = s.cfg := rfl
@[simp] theorem State.tbufWrite_trace (q : Nat) (v : Symbol) : (s.tbufWrite q v).trace = s.trace := rfl
@[simp] theorem State.tbufWrite_responses (q : Nat) (v : Symbol) : (s.tbufWrite q v).responses = s.responses := rfl
@[simp] theorem State.tbufWrite_draws (q : Nat) (v : Symbol) : (s.tbufWrite q v).draws = s.draws := rfl
@[simp] theorem State.tbufWrite_capCnt (q : Nat) (v : Symbol) : (s.tbufWrite q v).capCnt = s.capCnt := rfl
@[simp] theorem State.tbufWrite_capLatch (q : Nat) (v : Symbol) : (s.tbufWrite q v).capLatch = s.capLatch := rfl
@[simp] theorem State.tbufWrite_edgePend (q : Nat) (v : Symbol) : (s.tbufWrite q v).edgePend = s.edgePend := rfl
@[simp] theorem State.tbufWrite_ovfPend (q : Nat) (v : Symbol) : (s.tbufWrite q v).ovfPend = s.ovfPend := rfl
@[simp] theorem State.tbufWrite_hist (q : Nat) (v : Symbol) : (s.tbufWrite q v).hist = s.hist := rfl
@[simp] theorem State.tbufWrite_phase (q : Nat) (v : Symbol) : (s.tbufWrite q v).phase = s.phase := rfl
@[simp] theorem State.tbufWrite_freq (q : Nat) (v : Symbol) : (s.tbufWrite q v).freq = s.freq := rfl
@[simp] theorem State.tbufWrite_ovf (q : Nat) (v : Symbol) : (s.tbufWrite q v).ovf = s.ovf := rfl
@[simp] theorem State.tbufWrite_color (q : Nat) (v : Symbol) : (s.tbufWrite q v).color = s.color := rfl
@[simp] theorem State.tbufWrite_tbuf (q : Nat) (v : Symbol) : (s.tbufWrite q v).tbuf = s.tbuf.write q v := rfl
@[simp] theorem State.tbufWrite_encBusy (q : Nat) (v : Symbol) : (s.tbufWrite q v).encBusy = s.encBusy := rfl
@[simp] theorem State.tbufWrite_encBank (q : Nat) (v : Symbol) : (s.tbufWrite q v).encBank = s.encBank := rfl
@[simp] theorem State.tbufWrite_encK (q : Nat) (v : Symbol) : (s.tbufWrite q v).encK = s.encK := rfl
@[simp] theorem State.tbufWrite_encCursor (q : Nat) (v : Symbol) : (s.tbufWrite q v).encCursor = s.encCursor := rfl
@[simp] theorem State.tbufWrite_encWord (q : Nat) (v : Symbol) : (s.tbufWrite q v).encWord = s.encWord := rfl
@[simp] theorem State.tbufWrite_run (q : Nat) (v : Symbol) : (s.tbufWrite q v).run = s.run := rfl
@[simp] theorem State.tbufWrite_htEn (q : Nat) (v : Symbol) : (s.tbufWrite q v).htEn = s.htEn := rfl
@[simp] theorem State.tbufWrite_tcEn (q : Nat) (v : Symbol) : (s.tbufWrite q v).tcEn = s.tcEn := rfl
@[simp] theorem State.tbufWrite_htPend (q : Nat) (v : Symbol) : (s.tbufWrite q v).htPend = s.htPend := rfl
@[simp] theorem State.tbufWrite_tcPend (q : Nat) (v : Symbol) : (s.tbufWrite q v).tcPend = s.tcPend := rfl
@[simp] theorem State.tbufWrite_dmaPos (q : Nat) (v : Symbol) : (s.tbufWrite q v).dmaPos = s.dmaPos := rfl
@[simp] theorem State.tbufWrite_line (q : Nat) (v : Symbol) : (s.tbufWrite q v).line = s.line := rfl
@[simp] theorem State.tbufWrite_wire (q : Nat) (v : Symbol) : (s.tbufWrite q v).wire = s.wire := rfl

/-! ### After `Emit` -/

@[simp] theorem State.emit_cfg (sym : Symbol) : (s.emit sym).cfg = s.cfg := rfl
@[simp] theorem State.emit_trace (sym : Symbol) : (s.emit sym).trace = s.trace := rfl
@[simp] theorem State.emit_responses (sym : Symbol) : (s.emit sym).responses = s.responses := rfl
@[simp] theorem State.emit_draws (sym : Symbol) : (s.emit sym).draws = s.draws := rfl
@[simp] theorem State.emit_capCnt (sym : Symbol) : (s.emit sym).capCnt = s.capCnt := rfl
@[simp] theorem State.emit_capLatch (sym : Symbol) : (s.emit sym).capLatch = s.capLatch := rfl
@[simp] theorem State.emit_edgePend (sym : Symbol) : (s.emit sym).edgePend = s.edgePend := rfl
@[simp] theorem State.emit_ovfPend (sym : Symbol) : (s.emit sym).ovfPend = s.ovfPend := rfl
@[simp] theorem State.emit_hist (sym : Symbol) : (s.emit sym).hist = s.hist := rfl
@[simp] theorem State.emit_phase (sym : Symbol) : (s.emit sym).phase = s.phase := rfl
@[simp] theorem State.emit_freq (sym : Symbol) : (s.emit sym).freq = s.freq := rfl
@[simp] theorem State.emit_ovf (sym : Symbol) : (s.emit sym).ovf = s.ovf := rfl
@[simp] theorem State.emit_color (sym : Symbol) : (s.emit sym).color = s.color := rfl
@[simp] theorem State.emit_tbuf (sym : Symbol) : (s.emit sym).tbuf = s.tbuf := rfl
@[simp] theorem State.emit_encBusy (sym : Symbol) : (s.emit sym).encBusy = s.encBusy := rfl
@[simp] theorem State.emit_encBank (sym : Symbol) : (s.emit sym).encBank = s.encBank := rfl
@[simp] theorem State.emit_encK (sym : Symbol) : (s.emit sym).encK = s.encK := rfl
@[simp] theorem State.emit_encCursor (sym : Symbol) : (s.emit sym).encCursor = s.encCursor := rfl
@[simp] theorem State.emit_encWord (sym : Symbol) : (s.emit sym).encWord = s.encWord := rfl
@[simp] theorem State.emit_run (sym : Symbol) : (s.emit sym).run = s.run := rfl
@[simp] theorem State.emit_htEn (sym : Symbol) : (s.emit sym).htEn = s.htEn := rfl
@[simp] theorem State.emit_tcEn (sym : Symbol) : (s.emit sym).tcEn = s.tcEn := rfl
@[simp] theorem State.emit_htPend (sym : Symbol) : (s.emit sym).htPend = s.htPend := rfl
@[simp] theorem State.emit_tcPend (sym : Symbol) : (s.emit sym).tcPend = s.tcPend := rfl
@[simp] theorem State.emit_dmaPos (sym : Symbol) : (s.emit sym).dmaPos = s.dmaPos := rfl
@[simp] theorem State.emit_line (sym : Symbol) : (s.emit sym).line = levelAfter s.cfg sym := rfl
@[simp] theorem State.emit_wire (sym : Symbol) : (s.emit sym).wire = s.wire ++ [sym] := rfl

/-! ### After a response -/

@[simp] theorem State.respond_cfg (r : Response) : (s.respond r).cfg = s.cfg := rfl
@[simp] theorem State.respond_trace (r : Response) : (s.respond r).trace = s.trace := rfl
@[simp] theorem State.respond_responses (r : Response) : (s.respond r).responses = s.responses ++ [r] := rfl
@[simp] theorem State.respond_draws (r : Response) : (s.respond r).draws = s.draws := rfl
@[simp] theorem State.respond_capCnt (r : Response) : (s.respond r).capCnt = s.capCnt := rfl
@[simp] theorem State.respond_capLatch (r : Response) : (s.respond r).capLatch = s.capLatch := rfl
@[simp] theorem State.respond_edgePend (r : Response) : (s.respond r).edgePend = s.edgePend := rfl
@[simp] theorem State.respond_ovfPend (r : Response) : (s.respond r).ovfPend = s.ovfPend := rfl
@[simp] theorem State.respond_hist (r : Response) : (s.respond r).hist = s.hist := rfl
@[simp] theorem State.respond_phase (r : Response) : (s.respond r).phase = s.phase := rfl
@[simp] theorem State.respond_freq (r : Response) : (s.respond r).freq = s.freq := rfl
@[simp] theorem State.respond_ovf (r : Response) : (s.respond r).ovf = s.ovf := rfl
@[simp] theorem State.respond_color (r : Response) : (s.respond r).color = s.color := rfl
@[simp] theorem State.respond_tbuf (r : Response) : (s.respond r).tbuf = s.tbuf := rfl
@[simp] theorem State.respond_encBusy (r : Response) : (s.respond r).encBusy = s.encBusy := rfl
@[simp] theorem State.respond_encBank (r : Response) : (s.respond r).encBank = s.encBank := rfl
@[simp] theorem State.respond_encK (r : Response) : (s.respond r).encK = s.encK := rfl
@[simp] theorem State.respond_encCursor (r : Response) : (s.respond r).encCursor = s.encCursor := rfl
@[simp] theorem State.respond_encWord (r : Response) : (s.respond r).encWord = s.encWord := rfl
@[simp] theorem State.respond_run (r : Response) : (s.respond r).run = s.run := rfl
@[simp] theorem State.respond_htEn (r : Response) : (s.respond r).htEn = s.htEn := rfl
@[simp] theorem State.respond_tcEn (r : Response) : (s.respond r).tcEn = s.tcEn := rfl
@[simp] theorem State.respond_htPend (r : Response) : (s.respond r).htPend = s.htPend := rfl
@[simp] theorem State.respond_tcPend (r : Response) : (s.respond r).tcPend = s.tcPend := rfl
@[simp] theorem State.respond_dmaPos (r : Response) : (s.respond r).dmaPos = s.dmaPos := rfl
@[simp] theorem State.respond_line (r : Response) : (s.respond r).line = s.line := rfl
@[simp] theorem State.respond_wire (r : Response) : (s.respond r).wire = s.wire := rfl

/-! ### After the beginning of a refill -/

@[simp] theorem State.beginRefill_cfg (b : Bank) : (s.beginRefill b).cfg = s.cfg := rfl
@[simp] theorem State.beginRefill_trace (b : Bank) : (s.beginRefill b).trace = s.trace := rfl
@[simp] theorem State.beginRefill_responses (b : Bank) : (s.beginRefill b).responses = s.responses := rfl
@[simp] theorem State.beginRefill_draws (b : Bank) : (s.beginRefill b).draws = s.draws := rfl
@[simp] theorem State.beginRefill_capCnt (b : Bank) : (s.beginRefill b).capCnt = s.capCnt := rfl
@[simp] theorem State.beginRefill_capLatch (b : Bank) : (s.beginRefill b).capLatch = s.capLatch := rfl
@[simp] theorem State.beginRefill_edgePend (b : Bank) : (s.beginRefill b).edgePend = s.edgePend := rfl
@[simp] theorem State.beginRefill_ovfPend (b : Bank) : (s.beginRefill b).ovfPend = s.ovfPend := rfl
@[simp] theorem State.beginRefill_hist (b : Bank) : (s.beginRefill b).hist = s.hist := rfl
@[simp] theorem State.beginRefill_phase (b : Bank) : (s.beginRefill b).phase = s.phase := rfl
@[simp] theorem State.beginRefill_freq (b : Bank) : (s.beginRefill b).freq = s.freq := rfl
@[simp] theorem State.beginRefill_ovf (b : Bank) : (s.beginRefill b).ovf = s.ovf := rfl
@[simp] theorem State.beginRefill_color (b : Bank) : (s.beginRefill b).color = s.color := rfl
@[simp] theorem State.beginRefill_tbuf (b : Bank) : (s.beginRefill b).tbuf = s.tbuf := rfl
@[simp] theorem State.beginRefill_encBusy (b : Bank) : (s.beginRefill b).encBusy = true := rfl
@[simp] theorem State.beginRefill_encBank (b : Bank) : (s.beginRefill b).encBank = b := rfl
@[simp] theorem State.beginRefill_encK (b : Bank) : (s.beginRefill b).encK = 0 := rfl
@[simp] theorem State.beginRefill_encCursor (b : Bank) : (s.beginRefill b).encCursor = s.encCursor := rfl
@[simp] theorem State.beginRefill_encWord (b : Bank) : (s.beginRefill b).encWord = s.encWord := rfl
@[simp] theorem State.beginRefill_run (b : Bank) : (s.beginRefill b).run = s.run := rfl
@[simp] theorem State.beginRefill_htEn (b : Bank) : (s.beginRefill b).htEn = s.htEn := rfl
@[simp] theorem State.beginRefill_tcEn (b : Bank) : (s.beginRefill b).tcEn = s.tcEn := rfl
@[simp] theorem State.beginRefill_htPend (b : Bank) : (s.beginRefill b).htPend = s.htPend := rfl
@[simp] theorem State.beginRefill_tcPend (b : Bank) : (s.beginRefill b).tcPend = s.tcPend := rfl
@[simp] theorem State.beginRefill_dmaPos (b : Bank) : (s.beginRefill b).dmaPos = s.dmaPos := rfl
@[simp] theorem State.beginRefill_line (b : Bank) : (s.beginRefill b).line = s.line := rfl
@[simp] theorem State.beginRefill_wire (b : Bank) : (s.beginRefill b).wire = s.wire := rfl

/-! ### After offering a word -/

@[simp] theorem State.offer_cfg (w : OpWord) : (s.offer w).cfg = s.cfg := rfl
@[simp] theorem State.offer_trace (w : OpWord) : (s.offer w).trace = w :: s.trace := rfl
@[simp] theorem State.offer_responses (w : OpWord) : (s.offer w).responses = s.responses := rfl
@[simp] theorem State.offer_draws (w : OpWord) : (s.offer w).draws = s.draws := rfl
@[simp] theorem State.offer_capCnt (w : OpWord) : (s.offer w).capCnt = s.capCnt := rfl
@[simp] theorem State.offer_capLatch (w : OpWord) : (s.offer w).capLatch = s.capLatch := rfl
@[simp] theorem State.offer_edgePend (w : OpWord) : (s.offer w).edgePend = s.edgePend := rfl
@[simp] theorem State.offer_ovfPend (w : OpWord) : (s.offer w).ovfPend = s.ovfPend := rfl
@[simp] theorem State.offer_hist (w : OpWord) : (s.offer w).hist = s.hist := rfl
@[simp] theorem State.offer_phase (w : OpWord) : (s.offer w).phase = s.phase := rfl
@[simp] theorem State.offer_freq (w : OpWord) : (s.offer w).freq = s.freq := rfl
@[simp] theorem State.offer_ovf (w : OpWord) : (s.offer w).ovf = s.ovf := rfl
@[simp] theorem State.offer_color (w : OpWord) : (s.offer w).color = s.color := rfl
@[simp] theorem State.offer_tbuf (w : OpWord) : (s.offer w).tbuf = s.tbuf := rfl
@[simp] theorem State.offer_encBusy (w : OpWord) : (s.offer w).encBusy = s.encBusy := rfl
@[simp] theorem State.offer_encBank (w : OpWord) : (s.offer w).encBank = s.encBank := rfl
@[simp] theorem State.offer_encK (w : OpWord) : (s.offer w).encK = s.encK := rfl
@[simp] theorem State.offer_encCursor (w : OpWord) : (s.offer w).encCursor = s.encCursor := rfl
@[simp] theorem State.offer_encWord (w : OpWord) : (s.offer w).encWord = s.encWord := rfl
@[simp] theorem State.offer_run (w : OpWord) : (s.offer w).run = s.run := rfl
@[simp] theorem State.offer_htEn (w : OpWord) : (s.offer w).htEn = s.htEn := rfl
@[simp] theorem State.offer_tcEn (w : OpWord) : (s.offer w).tcEn = s.tcEn := rfl
@[simp] theorem State.offer_htPend (w : OpWord) : (s.offer w).htPend = s.htPend := rfl
@[simp] theorem State.offer_tcPend (w : OpWord) : (s.offer w).tcPend = s.tcPend := rfl
@[simp] theorem State.offer_dmaPos (w : OpWord) : (s.offer w).dmaPos = s.dmaPos := rfl
@[simp] theorem State.offer_line (w : OpWord) : (s.offer w).line = s.line := rfl
@[simp] theorem State.offer_wire (w : OpWord) : (s.offer w).wire = s.wire := rfl

/-! ### After the body of ESYM -/

@[simp] theorem encodeAt_cfg (k : Nat) : (encodeAt s k).cfg = s.cfg := rfl
@[simp] theorem encodeAt_trace (k : Nat) : (encodeAt s k).trace = s.trace := rfl
@[simp] theorem encodeAt_responses (k : Nat) : (encodeAt s k).responses = s.responses := rfl
@[simp] theorem encodeAt_draws (k : Nat) : (encodeAt s k).draws = s.draws := rfl
@[simp] theorem encodeAt_capCnt (k : Nat) : (encodeAt s k).capCnt = s.capCnt := rfl
@[simp] theorem encodeAt_capLatch (k : Nat) : (encodeAt s k).capLatch = s.capLatch := rfl
@[simp] theorem encodeAt_edgePend (k : Nat) : (encodeAt s k).edgePend = s.edgePend := rfl
@[simp] theorem encodeAt_ovfPend (k : Nat) : (encodeAt s k).ovfPend = s.ovfPend := rfl
@[simp] theorem encodeAt_hist (k : Nat) : (encodeAt s k).hist = s.hist := rfl
@[simp] theorem encodeAt_phase (k : Nat) : (encodeAt s k).phase = s.phase := rfl
@[simp] theorem encodeAt_freq (k : Nat) : (encodeAt s k).freq = s.freq := rfl
@[simp] theorem encodeAt_ovf (k : Nat) : (encodeAt s k).ovf = s.ovf := rfl
@[simp] theorem encodeAt_color (k : Nat) : (encodeAt s k).color = s.color := rfl
@[simp] theorem encodeAt_tbuf (k : Nat) : (encodeAt s k).tbuf = s.tbuf.write (bankBase s.cfg s.encBank + k) (dueSymbol s k) := rfl
@[simp] theorem encodeAt_encBusy (k : Nat) : (encodeAt s k).encBusy = s.encBusy := rfl
@[simp] theorem encodeAt_encBank (k : Nat) : (encodeAt s k).encBank = s.encBank := rfl
@[simp] theorem encodeAt_encK (k : Nat) : (encodeAt s k).encK = s.encK := rfl
@[simp] theorem encodeAt_encCursor (k : Nat) : (encodeAt s k).encCursor = cursorAfter s k := rfl
@[simp] theorem encodeAt_encWord (k : Nat) : (encodeAt s k).encWord = latchedWord s k := rfl
@[simp] theorem encodeAt_run (k : Nat) : (encodeAt s k).run = s.run := rfl
@[simp] theorem encodeAt_htEn (k : Nat) : (encodeAt s k).htEn = s.htEn := rfl
@[simp] theorem encodeAt_tcEn (k : Nat) : (encodeAt s k).tcEn = s.tcEn := rfl
@[simp] theorem encodeAt_htPend (k : Nat) : (encodeAt s k).htPend = s.htPend := rfl
@[simp] theorem encodeAt_tcPend (k : Nat) : (encodeAt s k).tcPend = s.tcPend := rfl
@[simp] theorem encodeAt_dmaPos (k : Nat) : (encodeAt s k).dmaPos = s.dmaPos := rfl
@[simp] theorem encodeAt_line (k : Nat) : (encodeAt s k).line = s.line := rfl
@[simp] theorem encodeAt_wire (k : Nat) : (encodeAt s k).wire = s.wire := rfl

/-! ### After RESET -/

@[simp] theorem State.resetWith_cfg (c : Config) : (State.resetWith c).cfg = c := rfl
@[simp] theorem State.resetWith_trace (c : Config) : (State.resetWith c).trace = [] := rfl
@[simp] theorem State.resetWith_responses (c : Config) : (State.resetWith c).responses = [] := rfl
@[simp] theorem State.resetWith_draws (c : Config) : (State.resetWith c).draws = 0 := rfl
@[simp] theorem State.resetWith_capCnt (c : Config) : (State.resetWith c).capCnt = 0 := rfl
@[simp] theorem State.resetWith_capLatch (c : Config) : (State.resetWith c).capLatch = 0 := rfl
@[simp] theorem State.resetWith_edgePend (c : Config) : (State.resetWith c).edgePend = false := rfl
@[simp] theorem State.resetWith_ovfPend (c : Config) : (State.resetWith c).ovfPend = false := rfl
@[simp] theorem State.resetWith_hist (c : Config) : (State.resetWith c).hist = List.replicate c.histLen 0 := rfl
@[simp] theorem State.resetWith_phase (c : Config) : (State.resetWith c).phase = 0 := rfl
@[simp] theorem State.resetWith_freq (c : Config) : (State.resetWith c).freq = 0 := rfl
@[simp] theorem State.resetWith_ovf (c : Config) : (State.resetWith c).ovf = true := rfl
@[simp] theorem State.resetWith_color (c : Config) : (State.resetWith c).color = [] := rfl
@[simp] theorem State.resetWith_tbuf (c : Config) : (State.resetWith c).tbuf = [] := rfl
@[simp] theorem State.resetWith_encBusy (c : Config) : (State.resetWith c).encBusy = false := rfl
@[simp] theorem State.resetWith_encBank (c : Config) : (State.resetWith c).encBank = .bank0 := rfl
@[simp] theorem State.resetWith_encK (c : Config) : (State.resetWith c).encK = 0 := rfl
@[simp] theorem State.resetWith_encCursor (c : Config) : (State.resetWith c).encCursor = 0 := rfl
@[simp] theorem State.resetWith_encWord (c : Config) : (State.resetWith c).encWord = 0 := rfl
@[simp] theorem State.resetWith_run (c : Config) : (State.resetWith c).run = false := rfl
@[simp] theorem State.resetWith_htEn (c : Config) : (State.resetWith c).htEn = false := rfl
@[simp] theorem State.resetWith_tcEn (c : Config) : (State.resetWith c).tcEn = false := rfl
@[simp] theorem State.resetWith_htPend (c : Config) : (State.resetWith c).htPend = false := rfl
@[simp] theorem State.resetWith_tcPend (c : Config) : (State.resetWith c).tcPend = false := rfl
@[simp] theorem State.resetWith_dmaPos (c : Config) : (State.resetWith c).dmaPos = 0 := rfl
@[simp] theorem State.resetWith_line (c : Config) : (State.resetWith c).line = .low := rfl
@[simp] theorem State.resetWith_wire (c : Config) : (State.resetWith c).wire = [] := rfl

end Sys2Proof.Machine
end

