-- ==== Sys2Proof/Laws/WellFormed.lean ====
section
/-! SUPPORT. What a well-formed configuration satisfies (00_scope R9), said once. -/

namespace Sys2Proof

/-- The configuration is well formed iff every check of R9 holds. -/
theorem Config.wellFormed_iff (c : Config) :
    c.WellFormed ↔ c.HistoryOk ∧ c.ArcOk ∧ c.CaptureOk ∧ c.StripOk ∧ c.DutyOk ∧ c.ScaleOk := by
  simp only [Config.WellFormed, Config.wellFormed, decide_eq_true_eq]

theorem Config.historyOk_of_wellFormed {c : Config} (h : c.WellFormed) : c.HistoryOk := (c.wellFormed_iff.mp h).1

theorem Config.arcOk_of_wellFormed {c : Config} (h : c.WellFormed) : c.ArcOk := (c.wellFormed_iff.mp h).2.1

theorem Config.captureOk_of_wellFormed {c : Config} (h : c.WellFormed) : c.CaptureOk := (c.wellFormed_iff.mp h).2.2.1

theorem Config.stripOk_of_wellFormed {c : Config} (h : c.WellFormed) : c.StripOk := (c.wellFormed_iff.mp h).2.2.2.1

theorem Config.dutyOk_of_wellFormed {c : Config} (h : c.WellFormed) : c.DutyOk := (c.wellFormed_iff.mp h).2.2.2.2.1

theorem Config.scaleOk_of_wellFormed {c : Config} (h : c.WellFormed) : c.ScaleOk := (c.wellFormed_iff.mp h).2.2.2.2.2

end Sys2Proof
end

