-- ==== Sys2Proof/Laws/Ops.lean ====
section
/-! SUPPORT. What each shared operation can do: reads after writes of the two buffers, and what the choice of the next
operation answers. -/

namespace Sys2Proof.Machine

/-- A colour word reads back as it was written (R232, R233). -/
@[simp] theorem State.colorRead_colorWrite_same (s : State) (i : Nat) (v : ColorWord) :
    (s.colorWrite i v).colorRead i = v := by
  simp [State.colorRead]

/-- A colour write leaves every other word alone. -/
theorem State.colorRead_colorWrite_other (s : State) {i j : Nat} (v : ColorWord) (h : j ≠ i) :
    (s.colorWrite i v).colorRead j = s.colorRead j := by
  simp [State.colorRead, Memory.find_write_other _ v h]

/-- The reads of the colour buffer depend on its list and on the draw alone. -/
theorem State.colorRead_congr {s t : State} (hc : t.color = s.color) (hd : t.draws = s.draws) (i : Nat) :
    t.colorRead i = s.colorRead i := by
  simp [State.colorRead, hc, hd]

/-- The reads of the transfer buffer depend on its list and on the draw alone. -/
theorem State.tbufRead_congr {s t : State} (hc : t.tbuf = s.tbuf) (hd : t.draws = s.draws) (q : Nat) :
    t.tbufRead q = s.tbufRead q := by
  simp [State.tbufRead, hc, hd]

/-- A read of the transfer buffer after one write to it. -/
theorem State.tbufRead_of_write {s t : State} {p : Nat} {v : Symbol} (hw : t.tbuf = s.tbuf.write p v)
    (hd : t.draws = s.draws) (q : Nat) : t.tbufRead q = if q = p then v else s.tbufRead q := by
  by_cases h : q = p
  · subst h
    simp [State.tbufRead, hw]
  · simp [State.tbufRead, hw, hd, Memory.find_write_other _ v h, h]

/-- The sizes of a well-formed configuration (R8, R9): a bank has at least one slot, two banks hold a frame. -/
theorem sizes_of_wellFormed {c : Config} (h : c.WellFormed) :
    2 ≤ slots c ∧ slots c ≤ 2 * bankSlots c ∧ 2 * bankSlots c ≤ slots c + 1 ∧ bankSyms c = 24 * bankSlots c ∧
      tbufSyms c = 2 * bankSyms c := by
  obtain ⟨hN, -, -, hG⟩ := Config.stripOk_of_wellFormed h
  refine ⟨?_, ?_, ?_, rfl, rfl⟩ <;> simp only [bankSlots, slots] <;> omega

/-- The symbol of a colour bit is the configuration's duty value (R81). -/
theorem bitSym_toNat {c : Config} (h : c.WellFormed) (b : Bool) :
    (bitSym c b).toNat = if b then c.duty1 else c.duty0 := by
  have := Config.dutyOk_of_wellFormed h
  cases b <;> simp only [bitSym, BitVec.toNat_ofNat] <;> apply Nat.mod_eq_of_lt <;> simp <;> omega

/-- What the choice of the next operation can answer, said once (R88, R268). -/
theorem fetch_cases (s : State) :
    (¬s.cfg.WellFormed ∧ fetch s = .refuse .badConfig) ∨
    (s.cfg.WellFormed ∧ s.trace = [] ∧ fetch s = .stop .traceEnd) ∨
    (s.cfg.WellFormed ∧ ∃ w rest, s.trace = w :: rest ∧
      ((∃ i, decode w = .ok i ∧ fetch s = .run i { s with trace := rest }) ∨
       (decode w = .error .reservedOp ∧ fetch s = .refuse .reservedOp) ∨
       (decode w = .error .reservedField ∧ fetch s = .refuse .reservedField))) := by
  by_cases hc : s.cfg.WellFormed
  · refine .inr ?_
    cases ht : s.trace with
    | nil => exact .inl ⟨hc, rfl, by simp only [fetch, if_pos hc, ht]⟩
    | cons w rest =>
      refine .inr ⟨hc, w, rest, rfl, ?_⟩
      cases hd : decode w with
      | ok i => exact .inl ⟨i, rfl, by simp only [fetch, if_pos hc, ht, hd]⟩
      | error r =>
        cases r with
        | reservedOp => exact .inr (.inl ⟨rfl, by simp only [fetch, if_pos hc, ht, hd]⟩)
        | reservedField => exact .inr (.inr ⟨rfl, by simp only [fetch, if_pos hc, ht, hd]⟩)
  · exact .inl ⟨hc, by simp only [fetch, if_neg hc]⟩

/-- A step that answers a next state ran one decoded operation of the trace. -/
theorem step_next {s t : State} (h : step s = .next t) :
    s.cfg.WellFormed ∧ ∃ w rest i, s.trace = w :: rest ∧ decode w = .ok i ∧
      exec i { s with trace := rest } = .next t := by
  rcases fetch_cases s with ⟨-, hf⟩ | ⟨-, -, hf⟩ | ⟨hc, w, rest, ht, ⟨i, hd, hf⟩ | ⟨-, hf⟩ | ⟨-, hf⟩⟩ <;>
    simp only [step, hf, reduceCtorEq] at h
  exact ⟨hc, w, rest, i, ht, hd, h⟩

end Sys2Proof.Machine
end

