-- ==== Sys2Proof/Laws/Exec.lean ====
section
/-! SUPPORT. One inversion lemma per operation: if its meaning answers a next state, then its guard held and this is
the state. Later proofs cite these instead of unfolding a meaning. -/

namespace Sys2Proof.Machine

theorem execCaptick_next {s t : State} (h : execCaptick s = .next t) :
    (captureWraps s = true ∧ t = { s with capCnt := 0, ovfPend := true }) ∨
    (captureWraps s = false ∧ t = { s with capCnt := s.capCnt + 1 }) := by
  unfold execCaptick at h
  split at h <;> cases h <;> simp_all

theorem execEdge_next {s t : State} (h : execEdge s = .next t) :
    t = { s with capLatch := s.capCnt, capCnt := 0, edgePend := true } := by
  cases h
  rfl

theorem execTedge_next {s t : State} (h : execTedge s = .next t) :
    s.edgePend = true ∧
    t = { s with
      edgePend := false
      hist := pushHist s.hist s.capLatch
      phase := resolvePhase s.cfg (pushHist s.hist s.capLatch) s.phase
      freq := freqAfterEdge s (resolvePhase s.cfg (pushHist s.hist s.capLatch) s.phase)
      ovf := false } := by
  unfold execTedge at h
  split at h
  · rename_i hg
    cases h
    exact ⟨hg, rfl⟩
  · cases h

theorem execTovf_next {s t : State} (h : execTovf s = .next t) :
    s.ovfPend = true ∧ t = { s with ovfPend := false, ovf := true, freq := 0 } := by
  unfold execTovf at h
  split at h
  · rename_i hg
    cases h
    exact ⟨hg, rfl⟩
  · cases h

theorem execPeriod_next {s t : State} (h : execPeriod s = .next t) :
    s.run = true ∧
    t = { s.emit (s.tbufRead s.dmaPos) with
      htPend := htPendAfter s
      tcPend := tcPendAfter s
      dmaPos := (s.dmaPos + 1) % tbufSyms s.cfg } := by
  unfold execPeriod at h
  split at h
  · rename_i hg
    cases h
    exact ⟨hg, rfl⟩
  · cases h

theorem execEht_next {s t : State} (h : execEht s = .next t) :
    s.htPend = true ∧ s.encBusy = false ∧ t = { s with htPend := false, encBusy := true, encBank := .bank0, encK := 0 } := by
  unfold execEht at h
  split at h
  · rename_i hg
    cases h
    simp only [State.enabled, Bool.and_eq_true, Bool.not_eq_true'] at hg
    exact ⟨hg.1, hg.2, rfl⟩
  · cases h

theorem execEtc_next {s t : State} (h : execEtc s = .next t) :
    s.tcPend = true ∧ s.encBusy = false ∧ t = { s with tcPend := false, encBusy := true, encBank := .bank1, encK := 0 } := by
  unfold execEtc at h
  split at h
  · rename_i hg
    cases h
    simp only [State.enabled, Bool.and_eq_true, Bool.not_eq_true'] at hg
    exact ⟨hg.1, hg.2, rfl⟩
  · cases h

theorem execEsym_next {s t : State} (h : execEsym s = .next t) :
    s.encBusy = true ∧
    ((s.encK = bankSyms s.cfg - 1 ∧ t = { encodeAt s s.encK with encK := 0, encBusy := false }) ∨
     (s.encK ≠ bankSyms s.cfg - 1 ∧ t = { encodeAt s s.encK with encK := s.encK + 1 })) := by
  unfold execEsym at h
  split at h
  · rename_i hg
    refine ⟨hg, ?_⟩
    split at h <;> cases h
    · rename_i hk
      exact .inl ⟨hk, rfl⟩
    · rename_i hk
      exact .inr ⟨hk, rfl⟩
  · cases h

theorem execReset_next {s t : State} (h : execReset s = .next t) :
    t = { State.resetWith s.cfg with
      trace := s.trace, responses := s.responses, draws := s.draws + 1, wire := s.wire } := by
  cases h
  rfl

theorem execStart_next {s t : State} (h : execStart s = .next t) :
    (s.run = true ∧ t = s) ∨
    (s.run = false ∧ t = { prefill s with
      encBusy := false, encK := 0, htPend := false, tcPend := false, htEn := true, tcEn := true, dmaPos := 0,
      run := true }) := by
  unfold execStart at h
  split at h <;> cases h <;> simp_all

theorem execWrcolor_next {i : BitVec 24} {w : ColorWord} {s t : State} (h : execWrcolor i w s = .next t) :
    i.toNat < s.cfg.ledCount ∧ t = s.colorWrite i.toNat w := by
  unfold execWrcolor at h
  split at h <;> cases h
  exact ⟨by omega, rfl⟩

theorem execRdcolor_next {i : BitVec 24} {s t : State} (h : execRdcolor i s = .next t) :
    i.toNat < s.cfg.ledCount ∧ t = s.respond (.color (s.colorRead i.toNat)) := by
  unfold execRdcolor at h
  split at h <;> cases h
  exact ⟨by omega, rfl⟩

theorem execRdsnap_next {s t : State} (h : execRdsnap s = .next t) : t = s.respond (.snap (snapshot s)) := by
  cases h
  rfl

end Sys2Proof.Machine
end

