-- ==== Sys2Proof/Laws/Encode.lean ====
section
/-! SUPPORT. What the body of ESYM does over a run of symbols (42_encoder R172), said once for the encoder's refills and
for START's prefill (44_host R231). -/

namespace Sys2Proof.Machine

/-- The frame slot `j` slots after the slot `start` (R36). -/
def slotAt (c : Config) (start j : Nat) : Nat := (start + j) % slots c

/-- `t` is `s` with the first `n` symbols of bank `b` encoded from the slot `start` on, as far as the encoder and the buffers
go. -/
structure Encoded (s : State) (b : Bank) (start : Nat) (t : State) (n : Nat) : Prop where
  cfg : t.cfg = s.cfg
  draws : t.draws = s.draws
  color : t.color = s.color
  bank : t.encBank = b
  cursor : t.encCursor = slotAt s.cfg start (n / 24)
  word : ∀ j, 24 * j < n → slotAt s.cfg start j < s.cfg.ledCount →
    (∀ j', j < j' → 24 * j' < n → s.cfg.ledCount ≤ slotAt s.cfg start j') →
    t.encWord = (s.colorRead (slotAt s.cfg start j)).setWidth 24
  wordKept : (∀ j, 24 * j < n → s.cfg.ledCount ≤ slotAt s.cfg start j) → t.encWord = s.encWord
  done : ∀ k < n, t.tbuf.find (bankBase s.cfg b + k) = some (slotSymbol s (slotAt s.cfg start (k / 24)) (k % 24))
  other : ∀ q, q < bankBase s.cfg b ∨ bankBase s.cfg b + n ≤ q → t.tbuf.find q = s.tbuf.find q

/-- Before the first symbol nothing has changed. -/
theorem Encoded.zero {s t : State} {b : Bank} {start : Nat} (hc : t.cfg = s.cfg) (hd : t.draws = s.draws)
    (hk : t.color = s.color) (hb : t.encBank = b) (hcur : t.encCursor = start) (hw : t.encWord = s.encWord)
    (ht : t.tbuf = s.tbuf) (hs : start < slots s.cfg) : Encoded s b start t 0 where
  cfg := hc
  draws := hd
  color := hk
  bank := hb
  cursor := by simp [slotAt, hcur, Nat.mod_eq_of_lt hs]
  word := by intro j hj; omega
  wordKept := fun _ => hw
  done := by intro k hk; omega
  other := by intro q _; rw [ht]

/-- The word latched at symbol `n` of a refill: the slot's colour at its first symbol, else the word before (R172). -/
theorem Encoded.latched {s t : State} {b : Bank} {start n : Nat} (h : Encoded s b start t n) :
    latchedWord t n =
      if n % 24 = 0 ∧ slotAt s.cfg start (n / 24) < s.cfg.ledCount then
        (s.colorRead (slotAt s.cfg start (n / 24))).setWidth 24
      else t.encWord := by
  simp only [latchedWord, h.cursor, h.cfg, State.colorRead_congr h.color h.draws]

/-- In a colour slot, the word in use at symbol `n` is the slot's own colour. -/
theorem Encoded.latched_color {s t : State} {b : Bank} {start n : Nat} (h : Encoded s b start t n)
    (hs : slotAt s.cfg start (n / 24) < s.cfg.ledCount) :
    latchedWord t n = (s.colorRead (slotAt s.cfg start (n / 24))).setWidth 24 := by
  rw [h.latched]
  split
  · rfl
  · rename_i hn
    refine h.word (n / 24) (by omega) hs fun j' hj hlt => ?_
    omega

/-- One symbol more. -/
theorem Encoded.succ {s t u : State} {b : Bank} {start n : Nat} (h : Encoded s b start t n) (hc : u.cfg = t.cfg)
    (hd : u.draws = t.draws) (hk : u.color = t.color) (hb : u.encBank = t.encBank)
    (hcur : u.encCursor = cursorAfter t n) (hw : u.encWord = latchedWord t n)
    (ht : u.tbuf = t.tbuf.write (bankBase t.cfg t.encBank + n) (dueSymbol t n)) : Encoded s b start u (n + 1) where
  cfg := hc.trans h.cfg
  draws := hd.trans h.draws
  color := hk.trans h.color
  bank := hb.trans h.bank
  cursor := by
    rw [hcur, cursorAfter, h.cursor, h.cfg]
    split
    · rename_i h23
      rw [show (n + 1) / 24 = n / 24 + 1 by omega]
      simp only [slotAt, Nat.mod_add_mod, Nat.add_assoc]
    · rename_i h23
      rw [show (n + 1) / 24 = n / 24 by omega]
  word := by
    intro j hj hs hlater
    rw [hw, h.latched]
    split
    · rename_i h0
      by_cases hjn : j = n / 24
      · rw [hjn]
      · have := hlater (n / 24) (by omega) (by omega)
        omega
    · rename_i h0
      by_cases hjn : 24 * j < n
      · exact h.word j hjn hs fun j' hj' hlt => hlater j' hj' (by omega)
      · have hn : n = 24 * j := by omega
        subst hn
        simp [hs] at h0
  wordKept := by
    intro hall
    rw [hw, h.latched, if_neg, h.wordKept fun j hj => hall j (by omega)]
    rintro ⟨h0, hs⟩
    have := hall (n / 24) (by omega)
    omega
  done := by
    intro k hk'
    rw [ht, h.cfg, h.bank]
    by_cases hkn : k = n
    · subst hkn
      rw [Memory.find_write_same]
      simp only [dueSymbol, slotSymbol, h.cursor, h.cfg]
      by_cases hs : slotAt s.cfg start (k / 24) < s.cfg.ledCount
      · rw [h.latched_color hs]
      · simp [symbolOf, Nat.le_of_not_lt hs]
    · rw [Memory.find_write_other _ _ (by omega)]
      exact h.done k (by omega)
  other := by
    intro q hq
    rw [ht, h.cfg, h.bank, Memory.find_write_other _ _ (by omega)]
    exact h.other q (by omega)

/-- The loop of one bank of START's prefill. -/
def prefillLoop (s : State) (n : Nat) : State :=
  (List.range n).foldl (fun t k => encodeAt { t with encK := k } k) s

theorem prefillLoop_succ (s : State) (n : Nat) :
    prefillLoop s (n + 1) = encodeAt { prefillLoop s n with encK := n } n := by
  simp [prefillLoop, List.range_succ]

theorem prefillBank_eq (s : State) (b : Bank) : prefillBank s b = prefillLoop { s with encBank := b } (bankSyms s.cfg) := rfl

/-- What the loop does to the encoder and the buffers. -/
theorem prefillLoop_encoded {s t : State} {b : Bank} {start : Nat} (h : Encoded s b start t 0) (n : Nat) :
    Encoded s b start (prefillLoop t n) n := by
  induction n with
  | zero => exact h
  | succ n ih =>
    rw [prefillLoop_succ]
    exact ih.succ rfl rfl rfl rfl rfl rfl rfl

/-- Whatever the body of ESYM and a change of ENC_K keep, the loop keeps. -/
theorem prefillLoop_keeps {α : Type} (g : State → α) (hE : ∀ t k, g (encodeAt t k) = g t)
    (hK : ∀ (t : State) k, g { t with encK := k } = g t) (s : State) (n : Nat) : g (prefillLoop s n) = g s := by
  induction n with
  | zero => rfl
  | succ n ih => rw [prefillLoop_succ, hE, hK, ih]

/-- Whatever the body of ESYM and changes of ENC_K, ENC_BANK and ENC_CURSOR keep, START's prefill keeps. -/
theorem prefill_keeps {α : Type} (g : State → α) (hE : ∀ t k, g (encodeAt t k) = g t)
    (hK : ∀ (t : State) k, g { t with encK := k } = g t) (hB : ∀ (t : State) b, g { t with encBank := b } = g t)
    (hC : ∀ (t : State) k, g { t with encCursor := k } = g t) (s : State) : g (prefill s) = g s := by
  rw [prefill, prefillBank_eq, prefillLoop_keeps g hE hK, hB, prefillBank_eq, prefillLoop_keeps g hE hK, hB, hC]

/-- The symbol that the body of ESYM writes is one of the block's three (R81). -/
theorem encodeAt_symbol (s : State) (k : Nat) : isSymbol s.cfg (dueSymbol s k) := by
  simp only [dueSymbol, symbolOf, isSymbol]
  split
  · exact .inl rfl
  · cases (latchedWord s k).getLsbD (23 - k % 24) <;> simp

/-! ### What START's prefill keeps -/

@[simp] theorem prefill_cfg (s : State) : (prefill s).cfg = s.cfg :=
  prefill_keeps State.cfg (fun _ _ => rfl) (fun _ _ => rfl) (fun _ _ => rfl) (fun _ _ => rfl) s

@[simp] theorem prefill_trace (s : State) : (prefill s).trace = s.trace :=
  prefill_keeps State.trace (fun _ _ => rfl) (fun _ _ => rfl) (fun _ _ => rfl) (fun _ _ => rfl) s

@[simp] theorem prefill_responses (s : State) : (prefill s).responses = s.responses :=
  prefill_keeps State.responses (fun _ _ => rfl) (fun _ _ => rfl) (fun _ _ => rfl) (fun _ _ => rfl) s

@[simp] theorem prefill_draws (s : State) : (prefill s).draws = s.draws :=
  prefill_keeps State.draws (fun _ _ => rfl) (fun _ _ => rfl) (fun _ _ => rfl) (fun _ _ => rfl) s

@[simp] theorem prefill_capCnt (s : State) : (prefill s).capCnt = s.capCnt :=
  prefill_keeps State.capCnt (fun _ _ => rfl) (fun _ _ => rfl) (fun _ _ => rfl) (fun _ _ => rfl) s

@[simp] theorem prefill_capLatch (s : State) : (prefill s).capLatch = s.capLatch :=
  prefill_keeps State.capLatch (fun _ _ => rfl) (fun _ _ => rfl) (fun _ _ => rfl) (fun _ _ => rfl) s

@[simp] theorem prefill_edgePend (s : State) : (prefill s).edgePend = s.edgePend :=
  prefill_keeps State.edgePend (fun _ _ => rfl) (fun _ _ => rfl) (fun _ _ => rfl) (fun _ _ => rfl) s

@[simp] theorem prefill_ovfPend (s : State) : (prefill s).ovfPend = s.ovfPend :=
  prefill_keeps State.ovfPend (fun _ _ => rfl) (fun _ _ => rfl) (fun _ _ => rfl) (fun _ _ => rfl) s

@[simp] theorem prefill_hist (s : State) : (prefill s).hist = s.hist :=
  prefill_keeps State.hist (fun _ _ => rfl) (fun _ _ => rfl) (fun _ _ => rfl) (fun _ _ => rfl) s

@[simp] theorem prefill_phase (s : State) : (prefill s).phase = s.phase :=
  prefill_keeps State.phase (fun _ _ => rfl) (fun _ _ => rfl) (fun _ _ => rfl) (fun _ _ => rfl) s

@[simp] theorem prefill_freq (s : State) : (prefill s).freq = s.freq :=
  prefill_keeps State.freq (fun _ _ => rfl) (fun _ _ => rfl) (fun _ _ => rfl) (fun _ _ => rfl) s

@[simp] theorem prefill_ovf (s : State) : (prefill s).ovf = s.ovf :=
  prefill_keeps State.ovf (fun _ _ => rfl) (fun _ _ => rfl) (fun _ _ => rfl) (fun _ _ => rfl) s

@[simp] theorem prefill_color (s : State) : (prefill s).color = s.color :=
  prefill_keeps State.color (fun _ _ => rfl) (fun _ _ => rfl) (fun _ _ => rfl) (fun _ _ => rfl) s

@[simp] theorem prefill_encBusy (s : State) : (prefill s).encBusy = s.encBusy :=
  prefill_keeps State.encBusy (fun _ _ => rfl) (fun _ _ => rfl) (fun _ _ => rfl) (fun _ _ => rfl) s

@[simp] theorem prefill_run (s : State) : (prefill s).run = s.run :=
  prefill_keeps State.run (fun _ _ => rfl) (fun _ _ => rfl) (fun _ _ => rfl) (fun _ _ => rfl) s

@[simp] theorem prefill_htEn (s : State) : (prefill s).htEn = s.htEn :=
  prefill_keeps State.htEn (fun _ _ => rfl) (fun _ _ => rfl) (fun _ _ => rfl) (fun _ _ => rfl) s

@[simp] theorem prefill_tcEn (s : State) : (prefill s).tcEn = s.tcEn :=
  prefill_keeps State.tcEn (fun _ _ => rfl) (fun _ _ => rfl) (fun _ _ => rfl) (fun _ _ => rfl) s

@[simp] theorem prefill_htPend (s : State) : (prefill s).htPend = s.htPend :=
  prefill_keeps State.htPend (fun _ _ => rfl) (fun _ _ => rfl) (fun _ _ => rfl) (fun _ _ => rfl) s

@[simp] theorem prefill_tcPend (s : State) : (prefill s).tcPend = s.tcPend :=
  prefill_keeps State.tcPend (fun _ _ => rfl) (fun _ _ => rfl) (fun _ _ => rfl) (fun _ _ => rfl) s

@[simp] theorem prefill_dmaPos (s : State) : (prefill s).dmaPos = s.dmaPos :=
  prefill_keeps State.dmaPos (fun _ _ => rfl) (fun _ _ => rfl) (fun _ _ => rfl) (fun _ _ => rfl) s

@[simp] theorem prefill_line (s : State) : (prefill s).line = s.line :=
  prefill_keeps State.line (fun _ _ => rfl) (fun _ _ => rfl) (fun _ _ => rfl) (fun _ _ => rfl) s

@[simp] theorem prefill_wire (s : State) : (prefill s).wire = s.wire :=
  prefill_keeps State.wire (fun _ _ => rfl) (fun _ _ => rfl) (fun _ _ => rfl) (fun _ _ => rfl) s

/-- The state after bank 0's prefill, in which bank 1's begins. -/
def prefillHalf (s : State) : State := prefillBank { s with encCursor := 0 } .bank0

/-- START's prefill of bank 0, from slot 0 on. -/
theorem prefillHalf_encoded (s : State) (h : 0 < slots s.cfg) :
    Encoded s .bank0 0 (prefillHalf s) (bankSyms s.cfg) := by
  have hz : Encoded s .bank0 0 { s with encCursor := 0, encBank := .bank0 } 0 :=
    Encoded.zero rfl rfl rfl rfl rfl rfl rfl h
  have heq : prefillHalf s = prefillLoop { s with encCursor := 0, encBank := .bank0 } (bankSyms s.cfg) := rfl
  rw [heq]
  exact prefillLoop_encoded hz _

/-- START's prefill of bank 1, from where bank 0's ended: slot `B` mod SLOTS. -/
theorem prefill_encoded (s : State) (h : 0 < slots s.cfg) :
    Encoded (prefillHalf s) .bank1 (bankSlots s.cfg % slots s.cfg) (prefill s) (bankSyms s.cfg) := by
  have h0 := prefillHalf_encoded s h
  have hc := h0.cfg
  have hcur : (prefillHalf s).encCursor = bankSlots s.cfg % slots s.cfg := by
    rw [h0.cursor, slotAt, bankSyms, Nat.mul_div_cancel_left _ (by omega), Nat.zero_add]
  have hlt : bankSlots s.cfg % slots s.cfg < slots (prefillHalf s).cfg := by
    rw [hc]
    exact Nat.mod_lt _ h
  have hz : Encoded (prefillHalf s) .bank1 (bankSlots s.cfg % slots s.cfg) { prefillHalf s with encBank := .bank1 } 0 :=
    Encoded.zero rfl rfl rfl rfl hcur rfl rfl hlt
  have heq : prefill s = prefillLoop { prefillHalf s with encBank := .bank1 } (bankSyms (prefillHalf s).cfg) := rfl
  rw [heq, hc]
  exact prefillLoop_encoded hz _

end Sys2Proof.Machine
end

