-- ==== Sys2Proof/Laws/Estimate.lean ====
section
/-! SUPPORT. Bounds and characterisations of the estimator's functions (41_estimator R140 to R148). -/

namespace Sys2Proof.Machine

/-- An arc index is always an index of the table (R62, R140). -/
theorem arcIndex_lt (c : Config) (cand j : Nat) (h : 0 < c.magnets) : arcIndex c cand j < c.magnets := by
  have h1 := Int.emod_nonneg ((cand : Int) - ((c.histLen : Int) - 1 - j)) (b := c.magnets) (by omega)
  have h2 := Int.emod_lt_of_pos ((cand : Int) - ((c.histLen : Int) - 1 - j)) (b := c.magnets) (by omega)
  unfold arcIndex
  omega

/-- An implied frequency has a positive denominator (R152). -/
theorem impliedFreq_den_pos (c : Config) (hist : List Nat) (cand j : Nat) : 0 < (impliedFreq c hist cand j).den :=
  lt_of_lt_of_le Nat.one_pos (Nat.le_max_right _ _)

/-- The trend has a positive denominator (R152). -/
theorem trend_den_pos (c : Config) (hist : List Nat) (cand j : Nat) : 0 < (trend c hist cand j).den := by
  unfold trend
  dsimp only
  split
  · exact impliedFreq_den_pos _ _ _ _
  · rename_i h
    exact Nat.mul_pos (Nat.mul_pos (impliedFreq_den_pos _ _ _ _) (impliedFreq_den_pos _ _ _ _)) (Nat.pos_of_ne_zero h)

/-- The elapsed time grows from sample to sample (R142). -/
theorem elapsed_mono (hist : List Nat) {i j : Nat} (h : i ≤ j) : elapsed hist i ≤ elapsed hist j := by
  unfold elapsed
  obtain ⟨k, hk⟩ := Nat.exists_eq_add_of_le (Nat.add_le_add_right h 1)
  rw [hk, List.take_add (l := hist) (i := i + 1) (j := k), List.sum_append]
  exact Nat.le_add_right _ _

/-- A tentative phase is an index of the table (R26). -/
theorem tentativePhase_lt (c : Config) (p : Nat) (h : 0 < c.magnets) : tentativePhase c p < c.magnets :=
  Nat.mod_lt _ h

/-- The scores are one for each candidate (R145). -/
@[simp] theorem scores_length (c : Config) (hist : List Nat) : (scores c hist).length = c.magnets := by simp [scores]

/-- The score of a candidate is the entry of the list of scores (R145). -/
theorem scores_getElem (c : Config) (hist : List Nat) (i : Nat) (h : i < (scores c hist).length) :
    (scores c hist)[i] = score c hist i := by
  simp [scores]

/-- The least element of a nonempty list is in it. -/
theorem leastOf_mem : ∀ {l : List Nat}, l ≠ [] → leastOf l ∈ l
  | [a], _ => by simp [leastOf]
  | a :: b :: rest, _ => by
    have ih := leastOf_mem (l := b :: rest) (by simp)
    simp only [leastOf]
    rcases Nat.le_total a (leastOf (b :: rest)) with h | h
    · simp [Nat.min_eq_left h]
    · rw [Nat.min_eq_right h]
      exact List.mem_cons_of_mem _ ih

/-- The least element of a list is below each. -/
theorem leastOf_le : ∀ {l : List Nat} {a : Nat}, a ∈ l → leastOf l ≤ a
  | [b], a, h => by simp_all [leastOf]
  | b :: c :: rest, a, h => by
    simp only [leastOf]
    rcases List.mem_cons.mp h with rfl | h
    · exact Nat.min_le_left _ _
    · exact (Nat.min_le_right _ _).trans (leastOf_le h)

/-- The first index of a listed value is a place of the list. -/
theorem firstIndexOf_lt {v : Nat} : ∀ {l : List Nat}, v ∈ l → firstIndexOf v l < l.length
  | a :: rest, h => by
    simp only [firstIndexOf]
    split
    · simp
    · rename_i hne
      have := firstIndexOf_lt ((List.mem_cons.mp h).resolve_left (Ne.symm hne))
      simpa using this

/-- The value stands at its first index. -/
theorem getD_firstIndexOf {v : Nat} : ∀ {l : List Nat}, v ∈ l → l.getD (firstIndexOf v l) 0 = v
  | a :: rest, h => by
    simp only [firstIndexOf]
    split
    · simpa
    · rename_i hne
      simpa using getD_firstIndexOf ((List.mem_cons.mp h).resolve_left (Ne.symm hne))

/-- No earlier place holds the value. -/
theorem getD_ne_of_lt_firstIndexOf {v : Nat} : ∀ {l : List Nat} {i : Nat}, i < firstIndexOf v l → l.getD i 0 ≠ v
  | [], i, h => by simp [firstIndexOf] at h
  | a :: rest, i, h => by
    simp only [firstIndexOf] at h
    split at h
    · omega
    · cases i with
      | zero => simpa
      | succ i => simpa using getD_ne_of_lt_firstIndexOf (l := rest) (i := i) (by omega)

/-- A deviation is at most `SCORE_MAX` (R144). -/
theorem deviation_le (c : Config) (hist : List Nat) (cand j : Nat) : deviation c hist cand j ≤ scoreMax := by
  unfold deviation
  dsimp only
  split
  · exact Nat.zero_le _
  · split
    · exact Nat.le_refl _
    · exact Nat.min_le_left _ _

/-- `FREQCALC` is at least 1 and at most `FREQ_MAX` (R147). -/
theorem freqCalc_bounds (c : Config) (a d : Nat) : 1 ≤ freqCalc c a d ∧ freqCalc c a d ≤ freqMax := by
  unfold freqCalc freqMax
  split <;> omega

/-- An override chooses one of its two arguments (R148). -/
theorem overridePhase_cases (c : Config) (conf best pt : Nat) :
    overridePhase c conf best pt = best ∨ overridePhase c conf best pt = pt := by
  unfold overridePhase
  split <;> simp

/-- A push keeps the length of a nonempty history (R25). -/
theorem pushHist_length {hist : List Nat} (d : Nat) (h : 0 < hist.length) : (pushHist hist d).length = hist.length := by
  simp [pushHist]
  omega

/-- What a pushed history holds: the new duration or an older one. -/
theorem mem_pushHist {hist : List Nat} {d x : Nat} (h : x ∈ pushHist hist d) : x ∈ hist ∨ x = d := by
  rcases List.mem_append.mp h with h | h
  · exact .inl (List.mem_of_mem_drop h)
  · exact .inr (by simpa using h)

/-- The best candidate is an index of the table (R146). -/
theorem rank_best_lt (c : Config) (hist : List Nat) (h : 0 < c.magnets) : (rank c hist).best < c.magnets := by
  have hne : scores c hist ≠ [] := by
    intro h0
    have := scores_length c hist
    rw [h0] at this
    simp only [List.length_nil] at this
    omega
  simpa [rank, rankScores] using firstIndexOf_lt (leastOf_mem hne)

/-- The resolved phase is an index of the table (R26: "`PHASE` is always a valid index"). -/
theorem resolvePhase_lt (c : Config) (hist : List Nat) (p : Nat) (h : 0 < c.magnets) :
    resolvePhase c hist p < c.magnets := by
  unfold resolvePhase
  dsimp only
  rcases overridePhase_cases c (confidence (rank c hist)) (rank c hist).best (tentativePhase c p) with h' | h' <;>
    rw [h']
  · exact rank_best_lt c hist h
  · exact tentativePhase_lt c p h

end Sys2Proof.Machine
end

