-- ==== Sys2Proof/Laws/Fairness.lean ====
section
/-! SUPPORT. Fair runs exist: from every state the round robin over the agents' operations, with a CAPTICK in place of an
operation that is not enabled, is a run under weak fairness (70_reset_and_hazards R320), without EDGE and RESET. -/

namespace Sys2Proof.Machine

/-- The guarded operation whose turn it is; the seventh turn is CAPTICK's. -/
def turnOf (n : Nat) : Option Guarded :=
  match n % 7 with
  | 0 => some .tedge
  | 1 => some .tovf
  | 2 => some .period
  | 3 => some .eht
  | 4 => some .etc
  | 5 => some .esym
  | _ => none

/-- The turn of a guarded operation. -/
def turnIndex : Guarded → Nat
  | .tedge => 0
  | .tovf => 1
  | .period => 2
  | .eht => 3
  | .etc => 4
  | .esym => 5

/-- The operation taken at a turn in a state. -/
def roundRobinPick (n : Nat) (s : State) : Instr :=
  match turnOf n with
  | some g => if s.enabled g then instrOf g else .captick
  | none => .captick

/-- The states of the round robin from a state. -/
def roundRobinState (s : State) : Nat → State
  | 0 => s
  | n + 1 =>
    match exec (roundRobinPick n (roundRobinState s n)) (roundRobinState s n) with
    | .next t => t
    | .fault _ => roundRobinState s n
    | .refused _ => roundRobinState s n

/-- The operations of the round robin from a state. -/
def roundRobinOp (s : State) (n : Nat) : Instr := roundRobinPick n (roundRobinState s n)

/-- A guarded operation whose guard holds completes, and keeps RUN. -/
theorem exec_guarded {g : Guarded} {s : State} (h : s.enabled g = true) :
    ∃ t, exec (instrOf g) s = .next t ∧ t.run = s.run := by
  cases g
  case esym =>
    simp only [instrOf, exec, execEsym, h, if_true]
    split <;> exact ⟨_, rfl, rfl⟩
  all_goals
    simp only [instrOf, exec, execTedge, execTovf, execPeriod, execEht, execEtc, h, if_true]
    exact ⟨_, rfl, rfl⟩

/-- CAPTICK completes, and keeps RUN. -/
theorem exec_captick (s : State) : ∃ t, exec .captick s = .next t ∧ t.run = s.run := by
  simp only [exec, execCaptick]
  split <;> exact ⟨_, rfl, rfl⟩

theorem exec_roundRobinPick (n : Nat) (s : State) : ∃ t, exec (roundRobinPick n s) s = .next t ∧ t.run = s.run := by
  unfold roundRobinPick
  split
  · split
    · exact exec_guarded (by assumption)
    · exact exec_captick s
  · exact exec_captick s

theorem turnOf_index (g : Guarded) (n : Nat) : turnOf (7 * n + turnIndex g) = some g := by
  cases g <;> simp [turnOf, turnIndex]

/-- The round robin never takes EDGE or RESET. -/
theorem roundRobinOp_ne (s : State) (n : Nat) : roundRobinOp s n ≠ .edge ∧ roundRobinOp s n ≠ .reset := by
  unfold roundRobinOp roundRobinPick
  split
  · rename_i g _
    split
    · cases g <;> exact ⟨nofun, nofun⟩
    · exact ⟨nofun, nofun⟩
  · exact ⟨nofun, nofun⟩

theorem roundRobinState_run (s : State) (n : Nat) : (roundRobinState s n).run = s.run := by
  induction n with
  | zero => rfl
  | succ n ih =>
    obtain ⟨t, ht, hr⟩ := exec_roundRobinPick n (roundRobinState s n)
    rw [roundRobinState, ht]
    exact hr.trans ih

/-- At its turn, an operation whose guard holds is taken. -/
theorem roundRobinOp_turn {g : Guarded} {s : State} {n : Nat}
    (h : (roundRobinState s (7 * n + turnIndex g)).enabled g = true) :
    roundRobinOp s (7 * n + turnIndex g) = instrOf g := by
  rw [roundRobinOp, roundRobinPick, turnOf_index]
  exact if_pos h

theorem roundRobin_fair (s : State) : FairRun (roundRobinOp s) (roundRobinState s) where
  runs n := by
    obtain ⟨t, ht, -⟩ := exec_roundRobinPick n (roundRobinState s n)
    rw [roundRobinOp, ht, roundRobinState, ht]
  fair g n h := ⟨7 * n + turnIndex g, by omega, roundRobinOp_turn (h _ (by omega))⟩
  ticks n := by
    refine ⟨7 * n + 6, by omega, ?_⟩
    have ht : turnOf (7 * n + 6) = none := by simp [turnOf]
    rw [roundRobinOp, roundRobinPick, ht]
  periods n h := by
    refine ⟨7 * n + turnIndex .period, by omega, .inl (roundRobinOp_turn (g := .period) ?_)⟩
    rw [State.enabled, roundRobinState_run]
    exact (roundRobinState_run s n).symm.trans h

end Sys2Proof.Machine
end

