-- ==== Sys2Proof/Laws/PerInstr.lean ====
section
/-! SUPPORT. One statement about each operation as syntax: its word carries its opcode and its operands in the three
fields of 30_encoding R85, and nothing in a field that R86 does not list. -/

namespace Sys2Proof.Laws.WordFields

/-- The fields of an operation's word (R85 to R87). -/
def Statement (i : Instr) : Prop :=
  opField (encode i) = opcodeOf i ∧ aField (encode i) = operandA i ∧ bField (encode i) = operandB i

/-- The fields of every word, from the encoder's law. -/
theorem holds (i : Instr) : Statement i := ⟨opField_encode i, aField_encode i, bField_encode i⟩

theorem reset : Statement .reset := holds _
theorem start : Statement .start := holds _
theorem wrcolor (i : BitVec 24) (w : ColorWord) : Statement (.wrcolor i w) := holds _
theorem rdcolor (i : BitVec 24) : Statement (.rdcolor i) := holds _
theorem rdsnap : Statement .rdsnap := holds _
theorem captick : Statement .captick := holds _
theorem edge : Statement .edge := holds _
theorem tedge : Statement .tedge := holds _
theorem tovf : Statement .tovf := holds _
theorem period : Statement .period := holds _
theorem eht : Statement .eht := holds _
theorem etc : Statement .etc := holds _
theorem esym : Statement .esym := holds _

end Sys2Proof.Laws.WordFields
end

