-- ==== Sys2Proof/Laws/Runs.lean ====
section
/-! SUPPORT. Sequences of operations taken apart at their first operation, and the two facts about infinite runs that
claims of the kind "eventually" go through: what one step keeps holds for good, and what one step keeps until some
operation holds until that operation. -/

namespace Sys2Proof.Machine

/-- A completed sequence is its first operation and the completed rest. -/
theorem runOps_cons_next {i : Instr} {rest : List Instr} {s t : State} (h : runOps (i :: rest) s = .next t) :
    ∃ u, exec i s = .next u ∧ runOps rest u = .next t := by
  rw [runOps] at h
  split at h
  · exact ⟨_, by assumption, h⟩
  · cases h
  · cases h

theorem runOps_cons {i : Instr} {rest : List Instr} {s u : State} (h : exec i s = .next u) :
    runOps (i :: rest) s = runOps rest u := by rw [runOps, h]

theorem runMeets_cons {cond : Instr → State → Prop} {i : Instr} {rest : List Instr} {s u : State}
    (h : exec i s = .next u) : runMeets cond (i :: rest) s ↔ cond i s ∧ runMeets cond rest u := by
  rw [runMeets, h]

theorem runSteps_cons {i : Instr} {rest : List Instr} {s u : State} (h : exec i s = .next u) :
    runSteps (i :: rest) s = (i, s) :: runSteps rest u := by rw [runSteps, h]

/-- A completed sequence of two parts is the two of them, one after the other. -/
theorem runOps_append {a b : List Instr} {s u : State} (h : runOps a s = .next u) :
    runOps (a ++ b) s = runOps b u := by
  induction a generalizing s with
  | nil => cases h; rfl
  | cons i rest ih =>
    obtain ⟨v, hv, hr⟩ := runOps_cons_next h
    rw [List.cons_append, runOps_cons hv, ih hr]

/-- What every operation of a run keeps holds at its end. -/
theorem runOps_keeps {p : State → Prop} {ops : List Instr} {s t : State} (h : runOps ops s = .next t) (hs : p s)
    (step : ∀ i ∈ ops, ∀ a b, p a → exec i a = .next b → p b) : p t := by
  induction ops generalizing s with
  | nil => cases h; exact hs
  | cons i rest ih =>
    obtain ⟨u, hu, hr⟩ := runOps_cons_next h
    exact ih hr (step i (.head _) s u hs hu) fun j hj => step j (.tail _ hj)

namespace FairRun

variable {op : Nat → Instr} {st : Nat → State}

/-- What every operation from some time on keeps, holds for good once it holds. -/
theorem keeps (r : FairRun op st) {p : State → Prop} {n : Nat} (hn : p (st n))
    (step : ∀ m, n ≤ m → ∀ t, p (st m) → exec (op m) (st m) = .next t → p t) : ∀ m, n ≤ m → p (st m) := by
  intro m hm
  induction m, hm using Nat.le_induction with
  | base => exact hn
  | succ m hm ih => exact step m hm _ ih (r.runs m)

/-- What holds is kept for good, or an operation that may end it happens. -/
theorem keeps_until (r : FairRun op st) {p : State → Prop} {ends : Instr → Prop} {n : Nat} (hn : p (st n))
    (step : ∀ i s t, p s → ¬ends i → exec i s = .next t → p t) :
    (∀ m, n ≤ m → p (st m)) ∨ ∃ m, n ≤ m ∧ ends (op m) := by
  by_cases h : ∃ m, n ≤ m ∧ ends (op m)
  · exact .inr h
  · exact .inl (r.keeps hn fun m hm t hp he => step _ _ t hp (fun hx => h ⟨m, hm, hx⟩) he)

end FairRun

end Sys2Proof.Machine
end

