-- ==== Sys2Proof/Laws/Tachometer.lean ====
section
/-! SUPPORT. What any operation but RESET can do to the capture front end and the estimator, said once: the four
tachometer operations have their effects, and every other operation keeps both agents' state. -/

namespace Sys2Proof.Machine

theorem exec_tachometer {i : Instr} {s t : State} (h : exec i s = .next t) (hr : i ≠ .reset) :
    (i = .captick ∧ captureWraps s = true ∧ t = { s with capCnt := 0, ovfPend := true }) ∨
    (i = .captick ∧ captureWraps s = false ∧ t = { s with capCnt := s.capCnt + 1 }) ∨
    (i = .edge ∧ t = { s with capLatch := s.capCnt, capCnt := 0, edgePend := true }) ∨
    (i = .tedge ∧ s.edgePend = true ∧
      t = { s with
        edgePend := false
        hist := pushHist s.hist s.capLatch
        phase := resolvePhase s.cfg (pushHist s.hist s.capLatch) s.phase
        freq := freqAfterEdge s (resolvePhase s.cfg (pushHist s.hist s.capLatch) s.phase)
        ovf := false }) ∨
    (i = .tovf ∧ s.ovfPend = true ∧ t = { s with ovfPend := false, ovf := true, freq := 0 }) ∨
    (i ≠ .captick ∧ i ≠ .edge ∧ i ≠ .tedge ∧ i ≠ .tovf ∧
      t.cfg = s.cfg ∧ keepsCapture s t ∧ keepsEstimator s t) := by
  cases i
  case reset => exact absurd rfl hr
  case captick => rcases execCaptick_next h with ⟨a, b⟩ | ⟨a, b⟩ <;> simp [a, b]
  case edge => simp [execEdge_next h]
  case tedge =>
    obtain ⟨a, rfl⟩ := execTedge_next h
    simp [a]
  case tovf =>
    obtain ⟨a, rfl⟩ := execTovf_next h
    simp [a]
  case start =>
    rcases execStart_next h with ⟨-, rfl⟩ | ⟨-, rfl⟩ <;> simp [keepsCapture, keepsEstimator]
  all_goals
    simp only [exec, execWrcolor, execRdcolor, execRdsnap, execPeriod, execEht, execEtc, execEsym] at h
    (repeat' split at h) <;> cases h <;>
      simp [keepsCapture, keepsEstimator, State.respond, State.colorWrite, State.emit, State.beginRefill, encodeAt]

end Sys2Proof.Machine
end

