-- ==== Sys2Proof/Tests/Slice0.lean ====
section
/-! SUPPORT. Tests. Part 1 checks the model against vectors of 95_test_vectors and words of 30_encoding, whose expected
values are the spec's; each test names its vector. Part 2 shows, for every statement of Obligations.lean that has
hypotheses, a concrete input that meets them together, at the boundaries of its clauses. -/

namespace Sys2Proof.Tests

open Sys2Proof.Machine

/-! ### Helpers -/

/-- The next state of an outcome, if it is one. -/
def nextOf : Host.Outcome State Fault Refusal → Option State
  | .next t => some t
  | .fault _ => none
  | .refused _ => none

/-- The fault of an outcome, if it is one. -/
def faultOf : Host.Outcome State Fault Refusal → Option Fault
  | .next _ => none
  | .fault f => some f
  | .refused _ => none

/-- The refusal of an outcome, if it is one. -/
def refusalOf : Host.Outcome State Fault Refusal → Option Refusal
  | .next _ => none
  | .fault _ => none
  | .refused r => some r

/-- CFG-C4: as CFG-5 with `CAP_PERIOD = 4`. -/
def cfgC4 : Config := { Config.reference with capPeriod := 4 }

/-- CFG-3: three magnets. -/
def cfg3 : Config := { Config.reference with arc := [300, 400, 500], histLen := 3 }

/-- CFG-N2: two LEDs. -/
def cfgN2 : Config := { Config.reference with ledCount := 2 }

/-- The smallest strip: one LED and one gap slot, so two banks of 24 symbols. -/
def cfgSmall : Config := { Config.reference with gapSlots := 1 }

/-- CFG-C4 with the counter at a value. -/
def counting (n : Nat) : State := { State.resetWith cfgC4 with capCnt := n }

/-- CFG-3 with a captured edge waiting. -/
def captured (hist : List Nat) (phase latch : Nat) (ovf : Bool) : State :=
  { State.resetWith cfg3 with hist := hist, phase := phase, capLatch := latch, edgePend := true, ovf := ovf }

/-- CFG-N1 with a running engine at a position whose symbol is listed. -/
def emitting (pos : Nat) (sym : Symbol) : State :=
  { State.reset with run := true, htEn := true, tcEn := true, dmaPos := pos, tbuf := [(pos, sym)] }

/-- CFG-N1 with a refill in progress. -/
def refilling (bank : Bank) (k cursor : Nat) : State :=
  { State.reset with encBusy := true, encBank := bank, encK := k, encCursor := cursor, color := [(0, 0x0000FF00)] }

/-- The smallest strip, stopped, with its colour word written. -/
def stopped : State := { State.resetWith cfgSmall with color := [(0, 0x00FF00FF)] }

/-- The smallest strip, running, all gap symbols, at a position. -/
def running (pos : Nat) : State :=
  { stopped with
    run := true, htEn := true, tcEn := true, dmaPos := pos, encBank := .bank1
    tbuf := (List.range 48).map fun q => (q, 0)
    wire := [0] }

/-- A condition on a step, as a check, along a sequence. -/
def runChecks (check : Instr → State → Bool) (ops : List Instr) (s : State) : Bool :=
  (runSteps ops s).all fun e => check e.1 e.2

/-- A check that implies a condition shows it along a sequence. -/
theorem runMeets_of_check {cond : Instr → State → Prop} {check : Instr → State → Bool} (ops : List Instr) (s : State)
    (h : ∀ i s, check i s = true → cond i s) (hc : runChecks check ops s = true) : runMeets cond ops s := by
  induction ops generalizing s with
  | nil => trivial
  | cons i rest ih =>
    simp only [runChecks, runSteps, List.all_cons, Bool.and_eq_true] at hc
    refine ⟨h i s hc.1, ?_⟩
    split <;> rename_i he <;> rw [he] at hc
    · exact ih _ hc.2
    · trivial
    · trivial

/-- DEADLINE as a check: off the two banks' first positions PERIOD meets it, and on them nothing may wait or be busy. -/
def deadlineCheck (i : Instr) (s : State) : Bool :=
  i != .period || (!s.encBusy && !s.htPend && !s.tcPend) ||
    (s.dmaPos != bankBase s.cfg .bank0 && s.dmaPos != bankBase s.cfg .bank1)

theorem deadlineMet_of_check (i : Instr) (s : State) (h : deadlineCheck i s = true) : deadlineMet i s := by
  rintro rfl
  simp [deadlineCheck] at h
  rcases h with ⟨⟨h1, h2⟩, h3⟩ | ⟨h1, h2⟩
  · simp [h1, h2, h3]
  · exact ⟨fun h => absurd h h1, fun h => absurd h h2⟩

/-- The service order as a check: never both notifications at once. -/
theorem servedInOrder_of_check (i : Instr) (s : State) (h : (!(s.htPend && s.tcPend) || (i != .eht && i != .etc)) = true)
    (he : i = .eht → s.htPend = true) (hc : i = .etc → s.tcPend = true) : servedInOrder i s := by
  constructor
  · rintro rfl -
    simpa [hc rfl] using h
  · rintro rfl -
    simpa [he rfl] using h

/-! ### Part 1: the configuration -/

/-- 00_scope R9: the reference configuration is well formed, and so are CFG-3, CFG-C4, CFG-N2. -/
theorem test_wellFormed_accepts :
    Config.reference.WellFormed ∧ cfg3.WellFormed ∧ cfgC4.WellFormed ∧ cfgN2.WellFormed ∧ cfgSmall.WellFormed := by
  decide

/-- R9 `3 <= M`, `M <= 2^16`, `L >= 3`. -/
theorem test_wellFormed_refuses_history :
    ¬({ cfg3 with arc := [1, 2] } : Config).WellFormed ∧
    ¬({ cfg3 with arc := List.replicate 65537 1 } : Config).WellFormed ∧
    ¬({ cfg3 with histLen := 2 } : Config).WellFormed := by
  refine ⟨by decide, ?_, by decide⟩
  intro h
  have h := (of_decide_eq_true h).1.2.1
  rw [Config.magnets, List.length_replicate] at h
  exact absurd h (by decide)

/-- R9 `ARC[i] < 2^32`. -/
theorem test_wellFormed_refuses_arc : ¬({ cfg3 with arc := [1, 2, 4294967296] } : Config).WellFormed := by decide

/-- R9 `CAP_PERIOD >= 2`. -/
theorem test_wellFormed_refuses_capture : ¬({ cfg3 with capPeriod := 1 } : Config).WellFormed := by decide

/-- R9 `1 <= N`, `N <= LED_MAX`, `LED_MAX <= 2^24`, `G >= 1`. -/
theorem test_wellFormed_refuses_strip :
    ¬({ cfg3 with ledCount := 0 } : Config).WellFormed ∧
    ¬({ cfg3 with ledCount := 5, ledMax := 4 } : Config).WellFormed ∧
    ¬({ cfg3 with ledMax := 16777217 } : Config).WellFormed ∧
    ¬({ cfg3 with gapSlots := 0 } : Config).WellFormed := by decide

/-- R9 `0 < DUTY0`, `DUTY0 < DUTY1`, `DUTY1 < P`, `P < 2^16`. -/
theorem test_wellFormed_refuses_duty :
    ¬({ cfg3 with duty0 := 0 } : Config).WellFormed ∧
    ¬({ cfg3 with duty0 := 62 } : Config).WellFormed ∧
    ¬({ cfg3 with duty1 := 100 } : Config).WellFormed ∧
    ¬({ cfg3 with periodTicks := 65536 } : Config).WellFormed := by decide

/-- R9 `FREQ_NUM >= 1`, `FREQ_DEN >= 1`, `SCORE_SCALE >= 1`. -/
theorem test_wellFormed_refuses_scale :
    ¬({ cfg3 with freqNum := 0 } : Config).WellFormed ∧
    ¬({ cfg3 with freqDen := 0 } : Config).WellFormed ∧
    ¬({ cfg3 with scoreScale := 0 } : Config).WellFormed := by decide

/-! ### Part 1: the decoder -/

/-- 30_encoding R85 and R86, the host's and the environment's operations, the fields written out: OP, A, B. -/
theorem test_decode_host :
    decode (0b00000001#8 ++ 0#24 ++ 0#32) = .ok .reset ∧
    decode (0b00000010#8 ++ 0#24 ++ 0#32) = .ok .start ∧
    decode (0b00000011#8 ++ 0b000000000000000000000001#24 ++ 0b10101011000100100011010001010110#32) =
      .ok (.wrcolor 1 0xAB123456) ∧
    decode (0b00000100#8 ++ 0b100000000000000000000010#24 ++ 0#32) = .ok (.rdcolor 0x800002) ∧
    decode (0b00000101#8 ++ 0#24 ++ 0#32) = .ok .rdsnap := by decide

/-- R86, the tachometer's operations. -/
theorem test_decode_tachometer :
    decode (0b00010000#8 ++ 0#24 ++ 0#32) = .ok .captick ∧
    decode (0b00010001#8 ++ 0#24 ++ 0#32) = .ok .edge ∧
    decode (0b00010010#8 ++ 0#24 ++ 0#32) = .ok .tedge ∧
    decode (0b00010011#8 ++ 0#24 ++ 0#32) = .ok .tovf := by decide

/-- R86, the LED pipeline's operations. -/
theorem test_decode_pipeline :
    decode (0b00100000#8 ++ 0#24 ++ 0#32) = .ok .period ∧
    decode (0b00100001#8 ++ 0#24 ++ 0#32) = .ok .eht ∧
    decode (0b00100010#8 ++ 0#24 ++ 0#32) = .ok .etc ∧
    decode (0b00100011#8 ++ 0#24 ++ 0#32) = .ok .esym := by decide

/-- 95 section 2.6, the refused words. -/
theorem test_decode_refuses :
    decode 0x0000000000000000 = .error .reservedOp ∧ decode 0x0600000000000000 = .error .reservedOp ∧
    decode 0xFF00000000000000 = .error .reservedOp ∧ decode 0x0100000000000001 = .error .reservedField ∧
    decode 0x0400000000000001 = .error .reservedField ∧ decode 0x2000000100000000 = .error .reservedField := by decide

/-- 95 section 2.6 and V-H4 to V-H6: the encoder. -/
theorem test_encode :
    encode (.wrcolor 0 0x0000FF00) = 0x030000000000FF00 ∧ encode (.wrcolor 1 5) = 0x0300000100000005 ∧
    encode (.rdcolor 1) = 0x0400000100000000 ∧ encode .esym = 0x2300000000000000 := by decide

/-- opcode_table.json numbers a word's bits from its least significant one. -/
theorem test_decodeTableWord :
    decodeTableWord 64 0x030000010000FF00 = some (.wrcolor 1 0xFF00) ∧ decodeTableWord 64 0x06 = none := by decide

/-! ### Part 1: one step each -/

/-- V-C2: the counter wraps. -/
theorem test_captick_wraps :
    (nextOf (exec .captick (counting 3))).map (fun t => (t.capCnt, t.ovfPend)) = some (0, true) := by decide

/-- V-C1: the counter counts. -/
theorem test_captick_counts :
    (nextOf (exec .captick (counting 0))).map (fun t => (t.capCnt, t.ovfPend)) = some (1, false) := by decide

/-- V-C4. -/
theorem test_edge :
    (nextOf (exec .edge (counting 2))).map (fun t => (t.capLatch, t.capCnt, t.edgePend)) = some (2, 0, true) := by decide

/-- V-E9, first row: a confidence of exactly 150 does not override. -/
theorem test_tedge_at_threshold :
    (nextOf (exec .tedge (captured [7, 10, 2] 1 13 false))).map (fun t => (t.hist, t.phase, t.freq)) =
      some ([10, 2, 13], 2, 12) := by decide

/-- V-E9, second row: 151 overrides. -/
theorem test_tedge_overrides :
    (nextOf (exec .tedge (captured [7, 10, 3] 1 9 false))).map (fun t => (t.hist, t.phase, t.freq)) =
      some ([10, 3, 9], 1, 14) := by decide

/-- V-E11, first line. -/
theorem test_tovf :
    (nextOf (exec .tovf { State.reset with ovf := false, freq := 400, ovfPend := true })).map
      (fun t => (t.ovf, t.freq, t.ovfPend)) = some (true, 0, false) := by decide

/-- V-E11, last line: not enabled. -/
theorem test_tovf_stuck : faultOf (exec .tovf State.reset) = some (.notEnabled .tovf) := by decide

/-- V-T1. -/
theorem test_period_half :
    (nextOf (exec .period (emitting 47 0))).map (fun t => (t.wire, t.htPend, t.tcPend, t.dmaPos)) =
      some ([0], true, false, 48) := by decide

/-- V-T2. -/
theorem test_period_full :
    (nextOf (exec .period (emitting 95 62))).map (fun t => (t.wire, t.htPend, t.tcPend, t.dmaPos)) =
      some ([62], false, true, 0) := by decide

/-- V-N1. -/
theorem test_eht :
    (nextOf (exec .eht { State.reset with htPend := true, encBank := .bank1, encK := 5 })).map
      (fun t => (t.htPend, t.encBusy, t.encBank, t.encK)) = some (false, true, .bank0, 0) := by decide

/-- V-N3: not enabled while a refill is in progress. -/
theorem test_eht_stuck :
    faultOf (exec .eht { State.reset with htPend := true, encBusy := true }) = some (.notEnabled .eht) := by decide

/-- V-N2. -/
theorem test_etc :
    (nextOf (exec .etc { State.reset with tcPend := true })).map
      (fun t => (t.tcPend, t.encBusy, t.encBank, t.encK)) = some (false, true, .bank1, 0) := by decide

/-- V-N5. -/
theorem test_esym_first :
    (nextOf (exec .esym (refilling .bank0 0 0))).map (fun t => (t.encWord, t.tbuf, t.encK)) =
      some (0x00FF00, [(0, 27)], 1) := by decide

/-- V-N6. -/
theorem test_esym_last :
    (nextOf (exec .esym (refilling .bank1 47 3))).map
      (fun t => (t.tbuf, t.encCursor, t.encK, t.encBusy, t.encWord)) = some ([(95, 0)], 0, 0, false, 0) := by decide

/-- V-H1. -/
theorem test_reset :
    (nextOf (exec .reset (running 30))).map (fun t => (t.status, t.freq, t.phase)) = some (0x001, 0, 0) := by decide

/-- V-H2: `TBUF = DUTY0×8 DUTY1×8 DUTY0×8 0×72`. -/
theorem test_start :
    (nextOf (exec .start { State.reset with color := [(0, 0x0000FF00)] })).map
      (fun t => (t.tbuf.map (·.2), t.encCursor, t.encBank, t.dmaPos, t.status)) =
      some (List.replicate 8 27 ++ List.replicate 8 62 ++ List.replicate 8 27 ++ List.replicate 72 0,
        0, .bank1, 0, 0x2E1) := by decide +kernel

/-- V-H3: ignored while running. -/
theorem test_start_ignored : nextOf (exec .start (running 5)) = some (running 5) := by decide

/-- V-H4, the write. -/
theorem test_wrcolor :
    (nextOf (exec (.wrcolor 0 0xAB123456) State.reset)).map (·.color) = some [(0, 0xAB123456)] := by decide

/-- V-H5. -/
theorem test_wrcolor_fault : faultOf (exec (.wrcolor 1 5) State.reset) = some .hostIndexRange := by decide

/-- V-H4, the read. -/
theorem test_rdcolor :
    (nextOf (exec (.rdcolor 0) { State.reset with color := [(0, 0xAB123456)] })).map (·.responses) =
      some [.color 0xAB123456] := by decide

/-- V-H6. -/
theorem test_rdcolor_fault : faultOf (exec (.rdcolor 1) State.reset) = some .hostIndexRange := by decide

/-- V-H8. -/
theorem test_rdsnap :
    (nextOf (exec .rdsnap { State.reset with freq := 400, phase := 4, ovf := false })).map (·.responses) =
      some [.snap 0x0000000400000190] := by decide

/-- V-H10. -/
theorem test_rdsnap_overflow :
    (nextOf (exec .rdsnap { State.reset with freq := 0, phase := 4, ovf := true })).map (·.responses) =
      some [.snap 0x0001000400000000] := by decide

/-! ### Part 1: the functions -/

/-- V-E4, the hand derivation. -/
theorem test_scores : scores cfg3 [4, 5, 3] = [0, 539, 395] ∧ confidence (rank cfg3 [4, 5, 3]) = 39500 := by decide

/-- V-E7, zero durations. -/
theorem test_scores_zero_durations :
    scores cfg3 [0, 0, 0] = [250, 400, 666] ∧ scores cfg3 [4, 0, 3] = [4000, 1400, 4333] := by decide

/-- V-E8, zero arcs. -/
theorem test_scores_zero_arcs :
    scores { cfg3 with arc := [0, 500, 0] } [1, 1, 1] = [1000, 1000, 4294967295] := by decide

/-- V-E3, the row P = 3, j = 1. -/
theorem test_scores_halved :
    scores Config.reference [66113112, 34670496, 61923605, 64606495, 65695792] = [951, 949, 922, 1000, 713] := by decide

/-- V-E10. -/
theorem test_freqCalc :
    freqCalc Config.reference 1 0 = 4294967295 ∧ freqCalc Config.reference 0 100 = 1 ∧
    freqCalc { Config.reference with freqNum := 1000 } 69340993 1 = 4294967295 ∧
    freqCalc Config.reference 69340993 34670 = 400 := by decide

/-- V-N8, bit order: green 0x12, blue 0x34, red 0x56. -/
theorem test_slot_order :
    (List.range 24).map (slotSymbol { State.reset with color := [(0, 0x00123456)] } 0) =
      [27, 27, 27, 62, 27, 27, 62, 27, 27, 27, 62, 62, 27, 62, 27, 27, 27, 62, 27, 62, 27, 62, 62, 27] := by decide

/-- V-N10, sizes. -/
theorem test_sizes :
    (slots cfgN2, bankSlots cfgN2, bankSyms cfgN2, tbufSyms cfgN2) = (5, 3, 72, 144) ∧
    (slots Config.reference, bankSlots Config.reference, bankSyms Config.reference, tbufSyms Config.reference) =
      (4, 2, 48, 96) := by decide

/-! ### Part 1: the step -/

/-- A word offered is run; a reserved word, an ill-formed configuration and an empty trace stop by name. -/
theorem test_step :
    (nextOf (step (State.reset.withFetchWord 64 0x1100000000000000))).map (·.edgePend) = some true ∧
    refusalOf (step (State.reset.withFetchWord 64 0x0600000000000000)) = some .reservedOp ∧
    refusalOf (step { State.reset with cfg := { cfg3 with histLen := 2 } }) = some .badConfig ∧
    faultOf (step State.reset) = some .traceEnd := by decide

/-! ### Part 2: witnesses for the hypotheses of the statements -/

theorem witness_EncodeAndDecodeAgree : decode 0xFFFFFF = .error .reservedOp ∧
    decode 0x03FFFFFFFFFFFFFF = .ok (.wrcolor 0xFFFFFF 0xFFFFFFFF) := by decide

theorem witness_DecoderFollowsTheTable :
    (tableRow (.rdcolor 0)).matches 0x0400000500000000 = true ∧
    (tableRow .esym).matches 0x2300000000000000 = true ∧
    decode 0x2300000000000001 = .error .reservedField ∧ decode 0x2400000000000000 = .error .reservedOp := by decide

/-- One state for each clause: an unassigned OP; a nonzero A; a nonzero B. -/
theorem witness_ReservedWordsAreRefused :
    State.reset.cfg.WellFormed ∧
    (State.reset.offer 0x0600000000000000).trace = 0x0600000000000000 :: [] ∧
    [(0x01 : BitVec 8), 2, 3, 4, 5, 0x10, 0x11, 0x12, 0x13, 0x20, 0x21, 0x22, 0x23].all
      (· != opField 0x0600000000000000) = true ∧
    (opcodeOf .period = opField 0x2000000100000000 ∧ usesA .period = false ∧ aField 0x2000000100000000 ≠ 0) ∧
    (opcodeOf (.rdcolor 0) = opField 0x0400000000000001 ∧ usesB (.rdcolor 0) = false ∧
      bField 0x0400000000000001 ≠ 0) := by decide

theorem witness_StepRunsTheDecodedOperation :
    (State.reset.offer 0x1000000000000000).cfg.WellFormed ∧
    (State.reset.offer 0x1000000000000000).trace = 0x1000000000000000 :: [] ∧
    decode 0x1000000000000000 = .ok .captick := by decide

/-- The two clauses of R110 meet at `CAP_PERIOD - 1`. -/
theorem witness_CaptickCountsAndWraps :
    (counting 3).capCnt = (counting 3).cfg.capPeriod - 1 ∧ (counting 2).capCnt ≠ (counting 2).cfg.capPeriod - 1 := by
  decide

/-- `n` just below and at `CAP_PERIOD`. -/
theorem witness_CaptureMeasuresTicksSinceTheEdge :
    (counting 2).cfg.WellFormed ∧ (counting 2).ovfPend = false ∧
    (nextOf (runOps (.edge :: List.replicate 3 .captick) (counting 2))).map (fun t => (t.capCnt, t.ovfPend)) =
      some (3, false) ∧
    (nextOf (runOps (.edge :: List.replicate 4 .captick) (counting 2))).map (fun t => (t.capCnt, t.ovfPend)) =
      some (0, true) := by decide

/-- A run with other operations between, one tick short of an overflow, one at it, and one serviced; after EDGE and RESET. -/
theorem witness_OverflowsCountTheTicksOfAnyRun :
    (counting 2).cfg.WellFormed ∧
    (∀ ops ∈ [[.captick, .rdsnap, .captick, .captick], [.captick, .captick, .tedge, .captick, .captick],
        [.captick, .captick, .captick, .captick, .tovf, .captick]],
      Instr.edge ∉ ops ∧ Instr.reset ∉ ops ∧ (nextOf (runOps (.edge :: ops) (counting 2))).isSome = true) ∧
    (nextOf (runOps [.edge, .captick, .rdsnap, .captick, .captick] (counting 2))).map (·.ovfPend) = some false ∧
    (nextOf (runOps [.edge, .captick, .captick, .tedge, .captick, .captick] (counting 2))).map (·.ovfPend) =
      some true ∧
    (nextOf (runOps [.reset, .captick, .captick] (counting 2))).isSome = true := by decide

theorem witness_EdgeAndWrapInEitherOrder :
    (counting 3).cfg.WellFormed ∧ (counting 3).capCnt = (counting 3).cfg.capPeriod - 1 := by decide

/-- A stuck state; a state at the threshold (no override, OVF clear); one just above it (override); one with OVF set. -/
theorem witness_TedgeServicesACapturedEdge :
    State.reset.edgePend = false ∧
    (∀ s ∈ [captured [7, 10, 2] 1 13 false, captured [7, 10, 3] 1 9 false, captured [7, 10, 3] 1 9 true],
      s.edgePend = true ∧ s.hist.length = s.cfg.histLen ∧ 3 ≤ s.cfg.histLen) ∧
    ¬(cfg3.confThreshold < confidence (rank cfg3 [10, 2, 13])) ∧
    (cfg3.confThreshold < confidence (rank cfg3 [10, 3, 9]) ∧ (rank cfg3 [10, 3, 9]).best ≠ (1 + 1) % cfg3.magnets) ∧
    (captured [7, 10, 3] 1 9 true).ovf = true ∧ (captured [7, 10, 2] 1 13 false).ovf = false := by decide

theorem witness_TovfServicesAnOverflow :
    State.reset.ovfPend = false ∧ { State.reset with ovfPend := true }.ovfPend = true := by decide

theorem witness_SamplesMapToConsecutiveArcs :
    cfg3.WellFormed ∧ 0 < cfg3.magnets ∧ 0 < cfg3.histLen ∧ cfg3.histLen = cfg3.magnets ∧
    arcIndex cfg3 0 0 = 1 ∧ arcIndex cfg3 2 2 = 2 := by decide

theorem witness_ScoresAreExact : cfg3.WellFormed ∧ 2 < cfg3.histLen := by decide

/-- The first and the last sample, with a positive span and with span 0. -/
theorem witness_TrendStaysBetweenItsAnchors :
    cfg3.WellFormed ∧ 0 < cfg3.histLen ∧ 2 < cfg3.histLen ∧ 0 < Exact.span cfg3 [4, 5, 3] ∧
    Exact.span cfg3 [4, 0, 0] = 0 := by
  refine ⟨by decide, by decide, by decide, ?_, ?_⟩ <;>
    norm_num [Exact.span, Exact.t, cfg3, Finset.sum_range_succ]

/-- The clause about ties is met by V-E6. -/
theorem witness_RankFindsBestAndSecondBest :
    ({ cfg3 with arc := [100, 100, 100] } : Config).WellFormed ∧
    ∃ k < ({ cfg3 with arc := [100, 100, 100] } : Config).magnets,
      k ≠ (rank { cfg3 with arc := [100, 100, 100] } [7, 7, 7]).best ∧
      score { cfg3 with arc := [100, 100, 100] } [7, 7, 7] k = (rank { cfg3 with arc := [100, 100, 100] } [7, 7, 7]).s1 := by
  decide

theorem witness_FrequencyIsExact :
    Config.reference.WellFormed ∧ freqCalc Config.reference 5 0 = 4294967295 ∧ freqCalc Config.reference 5 1 = 1 := by
  decide

theorem witness_EstimatorNeverDividesByZero : cfg3.WellFormed ∧ (trend cfg3 [4, 5, 3] 0 1).num ≠ 0 := by decide

/-- V-E4: `[4, 5, 3]` is proportional to the arcs of candidate 0 with `r = 100`, and the others score 539 and 395. -/
theorem witness_ProportionalDurationsResynchronise :
    cfg3.WellFormed ∧ (0 : Nat) < cfg3.magnets ∧ (0 : ℚ) < 100 ∧
    (∀ j < cfg3.histLen, 1 ≤ ([4, 5, 3] : List Nat).getD j 0 ∧
      (arcAt cfg3 (arcIndex cfg3 0 j) : ℚ) = 100 * (([4, 5, 3] : List Nat).getD j 0 : ℚ)) ∧
    (∀ k < cfg3.magnets, k ≠ 0 → 2 ≤ score cfg3 [4, 5, 3] k) ∧
    cfg3.confThreshold = 150 ∧ (captured [7, 4, 5] 1 3 false).edgePend = true ∧
    pushHist (captured [7, 4, 5] 1 3 false).hist (captured [7, 4, 5] 1 3 false).capLatch = [4, 5, 3] := by
  refine ⟨by decide, by decide, by norm_num, ?_, by decide, by decide, by decide, by decide⟩
  have h : ∀ j < cfg3.histLen, 1 ≤ ([4, 5, 3] : List Nat).getD j 0 ∧
      arcAt cfg3 (arcIndex cfg3 0 j) = 100 * ([4, 5, 3] : List Nat).getD j 0 := by decide
  exact fun j hj => ⟨(h j hj).1, by exact_mod_cast (h j hj).2⟩

/-- OVF set with FREQ 0; OVF clear with FREQ 0 after a first edge; OVF clear with FREQ above 0. -/
theorem witness_FrequencyAndOverflowAgree :
    freqOvfRelation false { State.reset with edgePend := true } ∧
    freqOvfRelation true { State.reset with ovf := false, ovfPend := true } ∧
    freqOvfRelation false { State.reset with ovf := false, freq := 400 } ∧
    (nextOf (exec .tedge { State.reset with edgePend := true })).isSome = true := by
  refine ⟨?_, ?_, ?_, by decide⟩ <;> unfold freqOvfRelation <;> decide

theorem witness_HistoryHoldsTheLastDurations :
    (counting 0).cfg.WellFormed ∧ (counting 0).capCnt = 0 ∧ (counting 0).hist.length = (counting 0).cfg.histLen ∧
    ∀ d ∈ [3, 0, 2], d < (counting 0).cfg.capPeriod := by decide

/-- Fewer TEDGEs than `L = 3`, and as many, with other operations between; and a run from a state with a full history. -/
theorem witness_HistoryHoldsTheServicedDurationsOfAnyRun :
    cfg3.WellFormed ∧
    (nextOf (runOps [.reset, .captick, .edge, .rdsnap, .tedge] (captured [7, 10, 2] 1 13 false))).map (·.hist) =
      some [0, 0, 1] ∧
    (nextOf (runOps [.reset, .captick, .edge, .tedge, .edge, .rdsnap, .tedge, .captick, .edge, .tedge]
      { captured [7, 10, 2] 1 13 false with run := true })).map (·.hist) = some [1, 0, 1] ∧
    (captured [7, 10, 2] 1 13 false).hist.length = (captured [7, 10, 2] 1 13 false).cfg.histLen ∧
    (nextOf (runOps [.rdsnap, .tedge] (captured [7, 10, 2] 1 13 false))).map (·.hist) = some [10, 2, 13] := by
  decide +kernel

/-- A run with an edge serviced, an overflow serviced and an edge that still waits, one event at a time. -/
theorem witness_ServiceDropsNoEvent :
    (counting 2).edgePend = false ∧ (counting 2).ovfPend = false ∧
    (nextOf (runOps [.edge, .rdsnap, .tedge, .captick, .captick, .captick, .captick, .tovf, .captick, .edge]
      (counting 2))).map (fun t => (t.edgePend, t.capLatch)) = some (true, 1) ∧
    runMeets serviceMet [.edge, .rdsnap, .tedge, .captick, .captick, .captick, .captick, .tovf, .captick, .edge]
      (counting 2) := by
  refine ⟨rfl, rfl, by decide, ?_⟩
  refine runMeets_of_check (check := fun i s => (i != .edge && i != .captick) || (!s.edgePend && !s.ovfPend)) _ _ ?_
    (by decide)
  rintro i s h (rfl | ⟨rfl, -⟩) <;> simpa using h

/-- Two states that agree on the tachometer and differ in the LED pipeline. -/
theorem witness_EstimatorIsIsolated :
    (running 0).cfg = stopped.cfg ∧ keepsCapture (running 0) stopped ∧ keepsEstimator (running 0) stopped ∧
    running 0 ≠ stopped ∧ (nextOf (exec .captick (running 0))).isSome = true ∧
    (nextOf (exec .captick stopped)).isSome = true := by
  refine ⟨by decide, ?_, ?_, by decide, by decide, by decide⟩
  · unfold keepsCapture; decide
  · unfold keepsEstimator; decide

theorem witness_TachometerEventsInEitherOrder :
    { captured [7, 10, 3] 1 9 false with ovfPend := true }.edgePend = true ∧
    { captured [7, 10, 3] 1 9 false with ovfPend := true }.ovfPend = true := by decide

theorem witness_EhtBeginsBankZero :
    State.reset.htPend = false ∧ { running 24 with htPend := true }.htPend = true ∧
    { running 24 with htPend := true }.encBusy = false := by decide

theorem witness_EtcBeginsBankOne :
    State.reset.tcPend = false ∧ { running 0 with tcPend := true }.tcPend = true ∧
    { running 0 with tcPend := true }.encBusy = false := by decide

/-- A slot's first symbol, its last, the bank's last, and a gap slot. -/
theorem witness_EsymWritesOneSymbol :
    State.reset.encBusy = false ∧
    (∀ s ∈ [refilling .bank0 0 0, refilling .bank0 23 0, refilling .bank1 47 3], s.encBusy = true) ∧
    ((refilling .bank0 0 0).encK % 24 = 0 ∧ (refilling .bank0 0 0).encCursor < (refilling .bank0 0 0).cfg.ledCount) ∧
    (refilling .bank0 23 0).encK % 24 = 23 ∧
    (refilling .bank1 47 3).encK = bankSyms (refilling .bank1 47 3).cfg - 1 := by decide

/-- Slot `N - 1` and slot `N`. -/
theorem witness_SymbolOfEachBit :
    Config.reference.WellFormed ∧ Config.reference.ledCount ≤ 1 ∧ 0 < Config.reference.ledCount ∧
    (0x00FF00 : ColorBits).getLsbD 8 = true ∧ (0x00FF00 : ColorBits).getLsbD 7 = false := by decide

theorem witness_SlotOrderIsGreenBlueRed :
    0 < State.reset.cfg.ledCount ∧ (7 : Nat) < 24 ∧ (8 : Nat) < 24 ∧ (15 : Nat) < 24 ∧ (23 : Nat) < 24 := by decide

theorem witness_SlotIsNotTornByAColourWrite :
    (refilling .bank0 1 0).encBusy = true ∧ (refilling .bank0 1 0).encK % 24 ≠ 0 ∧
    (0 : BitVec 24).toNat < (refilling .bank0 1 0).cfg.ledCount := by decide

theorem witness_NotificationsAreServicedOneAtATime :
    (refilling .bank0 1 0).encBusy = true ∧
    { running 0 with htPend := true, tcPend := true }.encBusy = false ∧
    { running 0 with htPend := true, tcPend := true }.run = true := by decide

theorem witness_RefillFillsTheBank :
    (refilling .bank1 0 3).cfg.WellFormed ∧ (refilling .bank1 0 3).encBusy = true ∧ (refilling .bank1 0 3).encK = 0 ∧
    (refilling .bank1 0 3).encCursor < slots (refilling .bank1 0 3).cfg ∧
    (0 : Nat) < bankSyms (refilling .bank1 0 3).cfg := by decide

/-- The last position of each bank, armed, and a position that is neither. -/
theorem witness_PeriodEmitsOneSymbol :
    State.reset.run = false ∧ (running 0).run = true ∧
    ((running 23).dmaPos = bankSyms (running 23).cfg - 1 ∧ (running 23).htEn = true) ∧
    ((running 47).dmaPos = tbufSyms (running 47).cfg - 1 ∧ (running 47).tcEn = true) ∧
    (running 0).dmaPos ≠ bankSyms (running 0).cfg - 1 ∧ (running 0).dmaPos ≠ tbufSyms (running 0).cfg - 1 := by decide

theorem witness_PeriodsRunCircularly :
    (running 47).cfg.WellFormed ∧ (running 47).run = true ∧ (running 47).htEn = true ∧ (running 47).tcEn = true ∧
    (running 47).dmaPos < tbufSyms (running 47).cfg := by decide

/-- Symbols that last less than, exactly and more than the period are all covered. -/
theorem witness_WaveformOfASymbol :
    Config.reference.WellFormed ∧ levelAfter Config.reference 99 = .low ∧ levelAfter Config.reference 100 = .high := by
  decide

/-- A stopped engine and a running one; the stopped engine with an even number of slots and with an odd one. -/
theorem witness_StartPrefillsAndRuns :
    stopped.cfg.WellFormed ∧ stopped.run = false ∧ slots stopped.cfg % 2 = 0 ∧
    (running 5).cfg.WellFormed ∧ (running 5).run = true ∧
    (nextOf (exec .start stopped)).map (fun t => (t.encCursor, t.encWord)) = some (0, 0xFF00FF) ∧
    cfgN2.WellFormed ∧ (State.resetWith cfgN2).run = false ∧ slots cfgN2 % 2 = 1 ∧
    (nextOf (exec .start { State.resetWith cfgN2 with color := [(0, 0x00FF0000), (1, 0x000000FF)] })).map
      (fun t => (t.encCursor, t.encWord)) = some (1, 0xFF0000) := by decide +kernel

/-- Index `N - 1` and index `N`. -/
theorem witness_WrcolorWritesOneWord :
    (0 : BitVec 24).toNat < State.reset.cfg.ledCount ∧ State.reset.cfg.ledCount ≤ (1 : BitVec 24).toNat := by decide

theorem witness_RdcolorReturnsTheWord :
    (0 : BitVec 24).toNat < stopped.cfg.ledCount ∧ stopped.cfg.ledCount ≤ (1 : BitVec 24).toNat := by decide

theorem witness_RdsnapReturnsTheSnapshot :
    { State.reset with phase := 4 }.cfg.WellFormed ∧
    { State.reset with phase := 4 }.phase < { State.reset with phase := 4 }.cfg.magnets := by decide

theorem witness_ResetMeetsTheInvariant : cfgN2.WellFormed ∧ cfgSmall.WellFormed := by decide

/-- The invariant holds of a running engine, at the last position of each bank and elsewhere. -/
theorem running_inv (pos : Nat) (h : pos < tbufSyms cfgSmall) : (running pos).Inv where
  config := by change cfgSmall.WellFormed; decide
  inRange := { capCnt := by change 0 < 65536; decide
               capLatch := by change 0 < 65536; decide
               histLen := by rfl
               hist := by change ∀ d ∈ (running 0).hist, d < 65536; decide
               phase := by change 0 < 5; decide
               encK := by change 0 < bankSyms cfgSmall; decide
               encCursor := by change 0 < slots cfgSmall; decide
               dmaPos := h }
  storage := { color := by change stopped.color.wf 1; decide
               tbuf := by change (running 0).tbuf.wf (tbufSyms cfgSmall); decide +kernel }
  flags := { ovfFreq := fun _ => rfl
             htEn := rfl
             tcEn := rfl
             stopped := fun h => nomatch h
             idle := fun _ => rfl }
  output := { line := rfl
              wire := fun v hv => .inl (List.mem_singleton.mp hv)
              tbuf := fun e he => by
                obtain ⟨q, -, rfl⟩ := List.mem_map.mp he
                exact .inl rfl
              filled := fun _ => by
                change ∀ q < tbufSyms cfgSmall, ((running 0).tbuf.find q).isSome = true
                decide +kernel }

/-- A state of the invariant at the boundary position 23, whose next operation is a PERIOD that completes. -/
theorem witness_StepKeepsTheInvariant :
    (running 23).Inv ∧ (nextOf (step ((running 23).offer 0x2000000000000000))).isSome = true :=
  ⟨running_inv 23 (by decide), by decide +kernel⟩

theorem witness_OnlyThreeSymbolsReachTheWire :
    (running 47).Inv ∧ (nextOf (runOps [.period, .etc, .esym] (running 47))).map (·.wire.length) = some 2 :=
  ⟨running_inv 47 (by decide), by decide +kernel⟩

theorem witness_ConfigurationNeverChanges :
    (nextOf (exec .edge State.reset)).isSome = true ∧
    (nextOf (step (State.reset.offer 0x1100000000000000))).isSome = true := by decide

theorem witness_EachElementHasItsWriters :
    (nextOf (exec .edge State.reset)).isSome = true ∧ Instr.edge ≠ .reset ∧
    ∀ i ∈ ([.edge, .captick, .rdsnap] : List Instr), i ≠ .start ∧ i ≠ .esym ∧ i ≠ .tedge ∧ i ≠ .tovf := by decide

theorem witness_OnlyResetStopsTheEngine :
    (running 5).run = true ∧ (nextOf (exec .reset (running 5))).map (·.run) = some false ∧
    stopped.run = false ∧ (nextOf (exec .start stopped)).map (·.run) = some true := by decide +kernel

theorem witness_WireGrowsAtPeriodsOnly :
    (nextOf (exec .period (running 0))).isSome = true ∧ (nextOf (exec .edge (running 0))).isSome = true := by
  decide +kernel

/-- A run of one cycle and a half from the stopped strip: each notification is serviced before the next, each refill ends
before its bank is read, no colour is written. -/
def servicedRun : List Instr :=
  [.start] ++ List.replicate 24 .period ++ [.eht] ++ List.replicate 24 .esym ++ List.replicate 24 .period ++ [.etc] ++
    List.replicate 24 .esym ++ List.replicate 24 .period

theorem witness_FramesRepeatUnderDeadline :
    stopped.cfg.WellFormed ∧ stopped.run = false ∧
    (nextOf (runOps servicedRun stopped)).map (·.wire.length) = some 72 ∧
    runMeets deadlineMet servicedRun stopped ∧ runMeets servedInOrder servicedRun stopped ∧
    runMeets noColorChange servicedRun stopped := by
  refine ⟨by decide, rfl, by decide +kernel, ?_, ?_, ?_⟩
  · exact runMeets_of_check _ _ deadlineMet_of_check (by decide +kernel)
  · refine runMeets_of_check (check := fun i s => (!(s.htPend && s.tcPend) || (i != .eht && i != .etc)) &&
      (i != .eht || s.htPend) && (i != .etc || s.tcPend)) _ _ (fun i s h => ?_) (by decide +kernel)
    simp only [Bool.and_eq_true] at h
    refine servedInOrder_of_check i s h.1.1 ?_ ?_
    · rintro rfl
      simpa using h.1.2
    · rintro rfl
      simpa using h.2
  · refine runMeets_of_check (check := fun i _ => i == .start || i == .period || i == .eht || i == .etc || i == .esym)
      _ _ (fun i s h => ?_) (by decide +kernel)
    constructor
    · rintro rfl
      exact absurd h (by decide)
    · rintro a b rfl
      simp at h

theorem witness_UnderrunsAreAdmitted : cfgSmall.WellFormed ∧ cfgN2.WellFormed := by decide

/-- The round robin from a state where both tachometer events wait. -/
theorem witness_FairRunsServiceTheTachometer :
    FairRun (roundRobinOp { captured [7, 10, 3] 1 9 false with ovfPend := true })
      (roundRobinState { captured [7, 10, 3] 1 9 false with ovfPend := true }) ∧
    (roundRobinState { captured [7, 10, 3] 1 9 false with ovfPend := true } 0).edgePend = true ∧
    (roundRobinState { captured [7, 10, 3] 1 9 false with ovfPend := true } 0).ovfPend = true :=
  ⟨roundRobin_fair _, rfl, rfl⟩

/-- The round robin from the first symbol of a refill and from the last. -/
theorem witness_FairRunsEndEveryRefill :
    (∀ s, FairRun (roundRobinOp s) (roundRobinState s)) ∧
    ∀ s ∈ [refilling .bank0 0 0, refilling .bank1 47 3], s.encK < bankSyms s.cfg ∧ s.encBusy = true :=
  ⟨roundRobin_fair, by decide⟩

/-- The round robin from a running engine that meets the invariant. -/
theorem witness_FairRunsEmitForever :
    FairRun (roundRobinOp (running 23)) (roundRobinState (running 23)) ∧ (running 23).Inv ∧
    (roundRobinState (running 23) 0).run = true ∧ ∀ m, 0 ≤ m → roundRobinOp (running 23) m ≠ .reset :=
  ⟨roundRobin_fair _, running_inv 23 (by decide), rfl, fun m _ => (roundRobinOp_ne _ m).2⟩

/-- The round robin from a state that has an edge waiting, at the last count. -/
theorem witness_FairRunsReportADropout :
    FairRun (roundRobinOp { counting 3 with edgePend := true }) (roundRobinState { counting 3 with edgePend := true }) ∧
    (roundRobinState { counting 3 with edgePend := true } 0).capCnt <
      (roundRobinState { counting 3 with edgePend := true } 0).cfg.capPeriod ∧
    ∀ m, 0 ≤ m → roundRobinOp { counting 3 with edgePend := true } m ≠ .edge ∧
      roundRobinOp { counting 3 with edgePend := true } m ≠ .reset :=
  ⟨roundRobin_fair _, by decide, fun m _ => roundRobinOp_ne _ m⟩

end Sys2Proof.Tests
end

section
/-! PROOFS. Where an operation completes and where it stops (00_scope R11, 60_exceptions R266), and which steps are
refused for their configuration (00_scope R9, 60_exceptions R268). -/

namespace Sys2Proof.Machine

/-! ### The three kinds of operation: guarded, with a host index, free -/

theorem guardOf_eq_some_iff {i : Instr} {g : Guarded} : guardOf i = some g ↔ i = instrOf g := by
  constructor
  · intro h
    cases i <;> cases h <;> rfl
  · rintro rfl
    cases g <;> rfl

@[simp] theorem guardOf_instrOf (g : Guarded) : guardOf (instrOf g) = some g := guardOf_eq_some_iff.mpr rfl

/-- No guarded operation accesses a colour word for the host. -/
@[simp] theorem hostIndex_instrOf (g : Guarded) : hostIndex (instrOf g) = none := by
  cases g <;> rfl

theorem guardOf_eq_none_of_hostIndex {i : Instr} {n : Nat} (h : hostIndex i = some n) : guardOf i = none := by
  cases i <;> cases h <;> rfl

/-! ### The outcome of each kind -/

/-- With a false guard the operation is stuck under its own name (R11). -/
theorem exec_instrOf_of_not_enabled {g : Guarded} {s : State} (h : s.enabled g = false) :
    exec (instrOf g) s = .fault (.notEnabled g) := by
  cases g <;> simp [instrOf, exec, execTedge, execTovf, execPeriod, execEht, execEtc, execEsym, h]

/-- WRCOLOR and RDCOLOR of an index of the strip complete (R232, R233). -/
theorem exec_next_of_hostIndex_lt {i : Instr} {n : Nat} {s : State} (h : hostIndex i = some n)
    (hn : n < s.cfg.ledCount) : ∃ t, exec i s = .next t := by
  cases i <;> cases h
  case wrcolor => exact ⟨_, if_neg (Nat.not_le.mpr hn)⟩
  case rdcolor => exact ⟨_, if_neg (Nat.not_le.mpr hn)⟩

/-- WRCOLOR and RDCOLOR of an index outside the strip fault (R266). -/
theorem exec_fault_of_le_hostIndex {i : Instr} {n : Nat} {s : State} (h : hostIndex i = some n)
    (hn : s.cfg.ledCount ≤ n) : exec i s = .fault .hostIndexRange := by
  cases i <;> cases h
  case wrcolor => exact if_pos hn
  case rdcolor => exact if_pos hn

/-- An operation with neither a guard nor a host index completes from every state. -/
theorem exec_next_of_free {i : Instr} (s : State) (hg : guardOf i = none) (hi : hostIndex i = none) :
    ∃ t, exec i s = .next t := by
  cases i
  case reset | edge | rdsnap => exact ⟨_, rfl⟩
  case captick =>
    obtain ⟨t, ht, -⟩ := exec_captick s
    exact ⟨t, ht⟩
  case start =>
    simp only [exec, execStart]
    split <;> exact ⟨_, rfl⟩
  case wrcolor | rdcolor => cases hi
  all_goals cases hg

/-- Every outcome of an operation, said once: it completes, its guard is false, or its host index is out of range. -/
theorem exec_cases (i : Instr) (s : State) :
    (∃ t, exec i s = .next t ∧ (∀ g, guardOf i = some g → s.enabled g = true) ∧
      ∀ n, hostIndex i = some n → n < s.cfg.ledCount) ∨
    (∃ g, exec i s = .fault (.notEnabled g) ∧ guardOf i = some g ∧ s.enabled g = false ∧ hostIndex i = none) ∨
    (∃ n, exec i s = .fault .hostIndexRange ∧ guardOf i = none ∧ hostIndex i = some n ∧ s.cfg.ledCount ≤ n) := by
  cases hg : guardOf i with
  | some g =>
    obtain rfl := guardOf_eq_some_iff.mp hg
    cases he : s.enabled g with
    | true =>
      obtain ⟨t, ht, -⟩ := exec_guarded he
      exact .inl ⟨t, ht, by simp [he]⟩
    | false => exact .inr (.inl ⟨g, exec_instrOf_of_not_enabled he, by simp [he]⟩)
  | none =>
    cases hi : hostIndex i with
    | none =>
      obtain ⟨t, ht⟩ := exec_next_of_free s hg hi
      exact .inl ⟨t, ht, by simp⟩
    | some n =>
      by_cases hn : n < s.cfg.ledCount
      · obtain ⟨t, ht⟩ := exec_next_of_hostIndex_lt hi hn
        exact .inl ⟨t, ht, by simp [hn]⟩
      · have hle := Nat.le_of_not_lt hn
        exact .inr (.inr ⟨n, exec_fault_of_le_hostIndex hi hle, by simp [hle]⟩)

/-- No operation is refused: refusals belong to the choice of the operation. -/
theorem exec_ne_refused (i : Instr) (s : State) (r : Refusal) : exec i s ≠ .refused r := by
  rcases exec_cases i s with ⟨t, he, -⟩ | ⟨g, he, -⟩ | ⟨n, he, -⟩ <;> simp [he]

/-! ### The obligations -/

/-- Settles O7, by the three outcomes that an operation can have. -/
theorem operationsStopExactlyWhereTheSpecSays : Obligations.OperationsStopExactlyWhereTheSpecSays := by
  intro i s
  rcases exec_cases i s with ⟨t, he, hg, hn⟩ | ⟨g, he, hg, hf, hi⟩ | ⟨n, he, hg, hi, hn⟩
  · simpa [he] using And.intro hg hn
  · simp [he, hg, hi, hf]
  · simp [he, hg, hi, hn]

/-- Settles O6: only the choice of the operation answers BadConfig, and it does so exactly under an ill-formed
configuration. -/
theorem illFormedConfigurationsAreRefused : Obligations.IllFormedConfigurationsAreRefused := by
  intro s
  rcases fetch_cases s with
    ⟨hc, hf⟩ | ⟨hc, -, hf⟩ | ⟨hc, w, rest, -, ⟨i, -, hf⟩ | ⟨-, hf⟩ | ⟨-, hf⟩⟩
  case inr.inr.inl => simpa [step, hf, hc] using exec_ne_refused i _ .badConfig
  all_goals simp [step, hf, hc]

end Sys2Proof.Machine
end

section
/-! PROOFS. The invariant of the block: it holds after RESET (10_state R49) and every step keeps it (R21 to R41, R62,
R81, R150). One lemma for each operation, over one for the body of ESYM, which START's prefill shares; then the trace
word STATUS (R45) and the growth of WIRE (R43). -/

namespace Sys2Proof.Machine

/-! ### Positions of the transfer buffer -/

/-- A place of a bank is a position of the transfer buffer (R32). -/
theorem bankBase_add_lt (c : Config) (b : Bank) {k : Nat} (h : k < bankSyms c) :
    bankBase c b + k < tbufSyms c := by
  cases b <;> simp only [bankBase, Bank.index, tbufSyms] <;> omega

/-- A position of the transfer buffer is a place of one of the two banks (R32). -/
theorem exists_bankBase_add {c : Config} {q : Nat} (h : q < tbufSyms c) :
    ∃ b, ∃ k < bankSyms c, q = bankBase c b + k := by
  simp only [tbufSyms] at h
  by_cases hq : q < bankSyms c
  · exact ⟨.bank0, q, hq, by simp [bankBase, Bank.index]⟩
  · exact ⟨.bank1, q - bankSyms c, by omega, by simp only [bankBase, Bank.index]; omega⟩

/-- A bank has at least one symbol (R8, R9). -/
theorem bankSyms_pos {c : Config} (h : c.WellFormed) : 0 < bankSyms c := by
  obtain ⟨hs, hb, -, hsyms, -⟩ := sizes_of_wellFormed h
  omega

/-! ### The block's symbols on the line -/

/-- The line rests low after each of the block's symbols: all are shorter than a bit period (R81, R203). -/
theorem levelAfter_of_isSymbol {c : Config} {v : Symbol} (hc : c.WellFormed) (hv : isSymbol c v) :
    levelAfter c v = .low := by
  obtain ⟨h0, h01, h1, -⟩ := Config.dutyOk_of_wellFormed hc
  refine if_neg (Nat.not_le.mpr ?_)
  rcases hv with rfl | rfl | rfl
  · exact (h0.trans h01).trans h1
  · simpa [bitSym_toNat hc] using h01.trans h1
  · simpa [bitSym_toNat hc] using h1

/-- While the engine runs, every position of the transfer buffer reads as one of the block's symbols (R32, R81). -/
theorem State.OutputOk.isSymbol_tbufRead {s : State} (h : s.OutputOk) (hr : s.run = true) {q : Nat}
    (hq : q < tbufSyms s.cfg) : isSymbol s.cfg (s.tbufRead q) := by
  obtain ⟨v, hv⟩ := Option.isSome_iff_exists.mp (h.filled hr q hq)
  simpa [State.tbufRead, hv] using h.tbuf _ (Memory.find_mem hv)

/-! ### The body of ESYM and START's prefill -/

/-- The part of the invariant that the body of ESYM rests on and moves. -/
structure State.EncoderOk (s : State) : Prop where
  cursor : s.encCursor < slots s.cfg
  space : s.tbuf.wf (tbufSyms s.cfg)
  symbols : ∀ e ∈ s.tbuf, isSymbol s.cfg e.2

theorem State.Inv.encoderOk {s : State} (h : s.Inv) : s.EncoderOk :=
  ⟨h.inRange.encCursor, h.storage.tbuf, h.output.tbuf⟩

/-- The cursor stays a slot of the frame (R36). -/
theorem cursorAfter_lt {s : State} (h : s.encCursor < slots s.cfg) (k : Nat) : cursorAfter s k < slots s.cfg := by
  unfold cursorAfter
  split
  · exact Nat.mod_lt _ (Nat.zero_lt_of_lt h)
  · exact h

theorem encodeAt_keeps_encoderOk {s : State} {k : Nat} (h : s.EncoderOk) (hk : k < bankSyms s.cfg) :
    (encodeAt s k).EncoderOk where
  cursor := cursorAfter_lt h.cursor k
  space := Memory.wf_write h.space (bankBase_add_lt _ _ hk)
  symbols e he := by
    rcases Memory.mem_write he with rfl | he
    · exact encodeAt_symbol s k
    · exact h.symbols e he

theorem prefillLoop_keeps_encoderOk {s : State} (h : s.EncoderOk) {n : Nat} (hn : n ≤ bankSyms s.cfg) :
    (prefillLoop s n).EncoderOk := by
  induction n with
  | zero => exact h
  | succ n ih =>
    have hc : (prefillLoop s n).cfg = s.cfg := prefillLoop_keeps State.cfg (fun _ _ => rfl) (fun _ _ => rfl) s n
    rw [prefillLoop_succ]
    refine encodeAt_keeps_encoderOk { ih (by omega) with } ?_
    rw [hc]
    exact hn

theorem prefillBank_keeps_encoderOk {s : State} (h : s.EncoderOk) (b : Bank) : (prefillBank s b).EncoderOk := by
  have hb : { s with encBank := b }.EncoderOk := { h with }
  rw [prefillBank_eq]
  exact prefillLoop_keeps_encoderOk hb (Nat.le_refl _)

/-- START's prefill keeps the encoder's part, one bank after the other (R231). -/
theorem prefill_keeps_encoderOk {s : State} (h : s.EncoderOk) : (prefill s).EncoderOk := by
  have h0 : { s with encCursor := 0 }.EncoderOk := { h with cursor := Nat.zero_lt_of_lt h.cursor }
  exact prefillBank_keeps_encoderOk (prefillBank_keeps_encoderOk h0 .bank0) .bank1

/-- START's prefill writes every position of the transfer buffer (R32, R231). -/
theorem prefill_find_isSome {s : State} (h : 0 < slots s.cfg) {q : Nat} (hq : q < tbufSyms s.cfg) :
    ((prefill s).tbuf.find q).isSome = true := by
  have half := prefillHalf_encoded s h
  have full := prefill_encoded s h
  obtain ⟨b, k, hk, rfl⟩ := exists_bankBase_add hq
  cases b with
  | bank0 =>
    rw [full.other _ (.inl (by simpa [half.cfg, bankBase, Bank.index] using hk)), half.done k hk]
    rfl
  | bank1 =>
    rw [← half.cfg, full.done k hk]
    rfl

/-! ### The invariant after RESET -/

/-- The block after RESET meets the invariant (R49). -/
theorem resetWith_inv {c : Config} (hc : c.WellFormed) : (State.resetWith c).Inv := by
  obtain ⟨hM, -, -⟩ := Config.historyOk_of_wellFormed hc
  have hP := Config.captureOk_of_wellFormed hc
  obtain ⟨hslots, -, -, -, htbuf⟩ := sizes_of_wellFormed hc
  have hbank := bankSyms_pos hc
  exact {
    config := hc
    inRange := {
      capCnt := Nat.zero_lt_of_lt hP
      capLatch := Nat.zero_lt_of_lt hP
      histLen := by simp
      hist := fun d hd => by
        rw [List.eq_of_mem_replicate hd]
        exact Nat.zero_lt_of_lt hP
      phase := Nat.zero_lt_of_lt hM
      encK := hbank
      encCursor := Nat.zero_lt_of_lt hslots
      dmaPos := by simp only [State.resetWith_dmaPos, State.resetWith_cfg]; omega }
    storage := ⟨Memory.wf_nil _, Memory.wf_nil _⟩
    flags := by constructor <;> simp
    output := by constructor <;> simp }

/-! ### Each operation keeps the invariant -/

/-- A notification waits, and a refill is in progress, in a running engine only (R38 to R40). -/
theorem State.FlagsOk.run_of_active {s : State} (h : s.FlagsOk)
    (ha : s.htPend = true ∨ s.tcPend = true ∨ s.encBusy = true) : s.run = true := by
  by_contra hrun
  obtain ⟨hht, htc, hbusy⟩ := h.stopped (by simpa using hrun)
  simp [hht, htc, hbusy] at ha

section
variable {s t : State} (hs : s.Inv)
include hs

/-- The invariant says nothing of the model's own trace and responses. -/
theorem State.Inv.withTraceResponses (rest : List OpWord) (rs : List Response) :
    { s with trace := rest, responses := rs }.Inv where
  config := hs.config
  inRange := { hs.inRange with }
  storage := { hs.storage with }
  flags := { hs.flags with }
  output := { hs.output with }

/-- The capture front end may move freely within the counter's range (R21, R22). -/
theorem State.Inv.withCapture {cnt latch : Nat} (hcnt : cnt < s.cfg.capPeriod) (hlatch : latch < s.cfg.capPeriod)
    (edge ovf : Bool) : { s with capCnt := cnt, capLatch := latch, edgePend := edge, ovfPend := ovf }.Inv where
  config := hs.config
  inRange := { hs.inRange with capCnt := hcnt, capLatch := hlatch }
  storage := { hs.storage with }
  flags := { hs.flags with }
  output := { hs.output with }

/-- A refill may begin in a running engine, whatever notifications still wait (R170, R171). -/
theorem State.Inv.beginRefill (hrun : s.run = true) (ht tc : Bool) (b : Bank) :
    ({ s with htPend := ht, tcPend := tc }.beginRefill b).Inv where
  config := hs.config
  inRange := { hs.inRange with encK := bankSyms_pos hs.config }
  storage := { hs.storage with }
  flags := { hs.flags with
    stopped := fun h => nomatch hrun.symm.trans h
    idle := fun _ => rfl }
  output := { hs.output with }

/-- The body of ESYM in a running engine, with whatever ENC_K and ENC_BUSY after it that agree (R172). -/
theorem State.Inv.afterSymbol {k : Nat} {busy : Bool} (hrun : s.run = true) (hk : k < bankSyms s.cfg)
    (hidle : busy = false → k = 0) : { encodeAt s s.encK with encK := k, encBusy := busy }.Inv := by
  have henc := encodeAt_keeps_encoderOk hs.encoderOk hs.inRange.encK
  exact {
    config := hs.config
    inRange := { hs.inRange with encK := hk, encCursor := henc.cursor }
    storage := { hs.storage with tbuf := henc.space }
    flags := { hs.flags with
      stopped := fun h => nomatch hrun.symm.trans h
      idle := hidle }
    output := { hs.output with
      tbuf := henc.symbols
      filled := fun hr q hq => Memory.find_write_isSome _ _ _ _ (hs.output.filled hr q hq) } }

theorem execReset_keeps_inv (h : execReset s = .next t) : t.Inv := by
  obtain rfl := execReset_next h
  have hr := resetWith_inv hs.config
  exact {
    config := hr.config
    inRange := { hr.inRange with }
    storage := { hr.storage with }
    flags := { hr.flags with }
    output := { hr.output with wire := hs.output.wire } }

theorem execStart_keeps_inv (h : execStart s = .next t) : t.Inv := by
  rcases execStart_next h with ⟨-, rfl⟩ | ⟨-, rfl⟩
  · exact hs
  have henc := prefill_keeps_encoderOk hs.encoderOk
  have hr := hs.inRange
  have hbank := bankSyms_pos hs.config
  exact {
    config := by simpa using hs.config
    inRange := {
      capCnt := by simpa using hr.capCnt
      capLatch := by simpa using hr.capLatch
      histLen := by simpa using hr.histLen
      hist := by simpa using hr.hist
      phase := by simpa using hr.phase
      encK := by simpa using hbank
      encCursor := henc.cursor
      dmaPos := by simpa [tbufSyms] using hbank }
    storage := ⟨by simpa using hs.storage.color, henc.space⟩
    flags := {
      ovfFreq := by simpa using hs.flags.ovfFreq
      htEn := rfl
      tcEn := rfl
      stopped := fun h => nomatch h
      idle := fun _ => rfl }
    output := {
      line := by simpa using hs.output.line
      wire := by simpa using hs.output.wire
      tbuf := henc.symbols
      filled := fun _ q hq => prefill_find_isSome (Nat.zero_lt_of_lt hr.encCursor) (by simpa using hq) } }

theorem execWrcolor_keeps_inv {i : BitVec 24} {w : ColorWord} (h : execWrcolor i w s = .next t) : t.Inv := by
  obtain ⟨hi, rfl⟩ := execWrcolor_next h
  exact {
    config := hs.config
    inRange := { hs.inRange with }
    storage := { hs.storage with color := Memory.wf_write hs.storage.color hi }
    flags := { hs.flags with }
    output := { hs.output with } }

theorem execCaptick_keeps_inv (h : execCaptick s = .next t) : t.Inv := by
  have hcnt := hs.inRange.capCnt
  rcases execCaptick_next h with ⟨-, rfl⟩ | ⟨hw, rfl⟩
  · exact hs.withCapture (Nat.zero_lt_of_lt hcnt) hs.inRange.capLatch _ _
  · have hne : s.capCnt ≠ s.cfg.capPeriod - 1 := by simpa [captureWraps] using hw
    exact hs.withCapture (by omega) hs.inRange.capLatch _ _

theorem execEdge_keeps_inv (h : execEdge s = .next t) : t.Inv := by
  have hcnt := hs.inRange.capCnt
  obtain rfl := execEdge_next h
  exact hs.withCapture (Nat.zero_lt_of_lt hcnt) hcnt _ _

theorem execTedge_keeps_inv (h : execTedge s = .next t) : t.Inv := by
  obtain ⟨-, rfl⟩ := execTedge_next h
  have hr := hs.inRange
  obtain ⟨-, -, hL⟩ := Config.historyOk_of_wellFormed hs.config
  have hpos : 0 < s.hist.length := by rw [hr.histLen]; omega
  exact {
    config := hs.config
    inRange := { hr with
      histLen := (pushHist_length _ hpos).trans hr.histLen
      hist := fun d hd => (mem_pushHist hd).elim (hr.hist d) fun he => he ▸ hr.capLatch
      phase := resolvePhase_lt _ _ _ (Nat.zero_lt_of_lt hr.phase) }
    storage := { hs.storage with }
    flags := { hs.flags with ovfFreq := fun h => nomatch h }
    output := { hs.output with } }

theorem execTovf_keeps_inv (h : execTovf s = .next t) : t.Inv := by
  obtain ⟨-, rfl⟩ := execTovf_next h
  exact {
    config := hs.config
    inRange := { hs.inRange with }
    storage := { hs.storage with }
    flags := { hs.flags with ovfFreq := fun _ => rfl }
    output := { hs.output with } }

theorem execPeriod_keeps_inv (h : execPeriod s = .next t) : t.Inv := by
  obtain ⟨hrun, rfl⟩ := execPeriod_next h
  have hpos := hs.inRange.dmaPos
  have hsym := hs.output.isSymbol_tbufRead hrun hpos
  exact {
    config := hs.config
    inRange := { hs.inRange with dmaPos := Nat.mod_lt _ (Nat.zero_lt_of_lt hpos) }
    storage := { hs.storage with }
    flags := { hs.flags with stopped := fun h => nomatch hrun.symm.trans h }
    output := { hs.output with
      line := levelAfter_of_isSymbol hs.config hsym
      wire := fun v hv => by
        rcases List.mem_append.mp hv with hv | hv
        · exact hs.output.wire v hv
        · rwa [List.mem_singleton.mp hv] } }

theorem execEht_keeps_inv (h : execEht s = .next t) : t.Inv := by
  obtain ⟨hpend, -, rfl⟩ := execEht_next h
  exact hs.beginRefill (hs.flags.run_of_active (.inl hpend)) false s.tcPend .bank0

theorem execEtc_keeps_inv (h : execEtc s = .next t) : t.Inv := by
  obtain ⟨hpend, -, rfl⟩ := execEtc_next h
  exact hs.beginRefill (hs.flags.run_of_active (.inr (.inl hpend))) s.htPend false .bank1

theorem execEsym_keeps_inv (h : execEsym s = .next t) : t.Inv := by
  obtain ⟨hbusy, hcases⟩ := execEsym_next h
  have hrun := hs.flags.run_of_active (.inr (.inr hbusy))
  have hk := hs.inRange.encK
  rcases hcases with ⟨-, rfl⟩ | ⟨hne, rfl⟩
  · exact hs.afterSymbol hrun (Nat.zero_lt_of_lt hk) fun _ => rfl
  · exact hs.afterSymbol (busy := s.encBusy) hrun (by omega) (by simp [hbusy])

/-- Whatever the operation, the invariant holds of the state it answers. -/
theorem exec_keeps_inv {i : Instr} (h : exec i s = .next t) : t.Inv := by
  cases i with
  | reset => exact execReset_keeps_inv hs h
  | start => exact execStart_keeps_inv hs h
  | wrcolor i w => exact execWrcolor_keeps_inv hs h
  | rdcolor i =>
    obtain ⟨-, rfl⟩ := execRdcolor_next h
    exact hs.withTraceResponses _ _
  | rdsnap =>
    obtain rfl := execRdsnap_next h
    exact hs.withTraceResponses _ _
  | captick => exact execCaptick_keeps_inv hs h
  | edge => exact execEdge_keeps_inv hs h
  | tedge => exact execTedge_keeps_inv hs h
  | tovf => exact execTovf_keeps_inv hs h
  | period => exact execPeriod_keeps_inv hs h
  | eht => exact execEht_keeps_inv hs h
  | etc => exact execEtc_keeps_inv hs h
  | esym => exact execEsym_keeps_inv hs h

end

/-! ### The output stream -/

/-- No operation but PERIOD moves the output stream (R43). -/
theorem exec_keeps_wire {i : Instr} {s t : State} (h : exec i s = .next t) (hi : i ≠ .period) : t.wire = s.wire := by
  cases i with
  | reset => rw [execReset_next h]
  | start => rcases execStart_next h with ⟨-, rfl⟩ | ⟨-, rfl⟩ <;> simp
  | wrcolor i w =>
    obtain ⟨-, rfl⟩ := execWrcolor_next h
    rfl
  | rdcolor i =>
    obtain ⟨-, rfl⟩ := execRdcolor_next h
    rfl
  | rdsnap => rw [execRdsnap_next h, State.respond_wire]
  | captick => rcases execCaptick_next h with ⟨-, rfl⟩ | ⟨-, rfl⟩ <;> rfl
  | edge => rw [execEdge_next h]
  | tedge =>
    obtain ⟨-, rfl⟩ := execTedge_next h
    rfl
  | tovf =>
    obtain ⟨-, rfl⟩ := execTovf_next h
    rfl
  | period => exact absurd rfl hi
  | eht =>
    obtain ⟨-, -, rfl⟩ := execEht_next h
    rfl
  | etc =>
    obtain ⟨-, -, rfl⟩ := execEtc_next h
    rfl
  | esym => obtain ⟨-, ⟨-, rfl⟩ | ⟨-, rfl⟩⟩ := execEsym_next h <;> rfl

/-! ### The obligations -/

/-- Settles O44: a step runs one operation of the trace, and each operation keeps the invariant. -/
theorem stepKeepsTheInvariant : Obligations.StepKeepsTheInvariant := by
  intro s t hs h
  obtain ⟨-, w, rest, i, -, -, he⟩ := step_next h
  exact exec_keeps_inv (hs.withTraceResponses rest s.responses) he

/-- Settles O49, by PERIOD's own effect and the frame of every other operation. -/
theorem wireGrowsAtPeriodsOnly : Obligations.WireGrowsAtPeriodsOnly := by
  intro i s t h
  refine ⟨?_, exec_keeps_wire h⟩
  rintro rfl
  obtain ⟨-, rfl⟩ := execPeriod_next h
  rfl

/-- Settles O42: STATUS is ten one-bit words side by side, and bit `n` is the word of that place. -/
theorem statusCollectsTheFlags : Obligations.StatusCollectsTheFlags := by
  intro s
  simp only [State.status, BitVec.getLsbD_append, BitVec.getLsbD_ofBool]
  simp

/-- Settles O43, the reference configuration being well formed. -/
theorem resetMeetsTheInvariant : Obligations.ResetMeetsTheInvariant :=
  ⟨fun _ hc => resetWith_inv hc, resetWith_inv (by decide)⟩

end Sys2Proof.Machine
end

section
/-! PROOFS. The storage of the block (20_memory): the step runs the word that the interleaving offers (R64), a colour
write does not tear a slot (R65), the configuration is fixed (R66), each element has its writers (R69), and underruns
are admitted (R70). -/

namespace Sys2Proof.Machine

/-! ### The offered word -/

/-- The decoder undoes the encoder: the opcode selects the arm, and the fields it does not use are zero (R85 to R87). -/
theorem decode_encode (i : Instr) : decode (encode i) = .ok i := by
  cases i <;> simp [decode, opcodeOf, noOperands, onlyA, operandA, operandB]

/-- The number of a 64-bit word stands for that word (R85). -/
@[simp] theorem tableWord_toNat (w : OpWord) : tableWord 64 w.toNat = w := by
  simp [tableWord, Nat.mod_eq_of_lt w.isLt]

/-- A step takes the trace's first word, and runs the operation that it decodes to. -/
theorem step_of_decode {s : State} {w : OpWord} {rest : List OpWord} {i : Instr} (hc : s.cfg.WellFormed)
    (ht : s.trace = w :: rest) (hd : decode w = .ok i) : step s = exec i { s with trace := rest } := by
  simp only [step, fetch, if_pos hc, ht, hd]

/-! ### A colour write between two symbols of a slot -/

/-- Within a slot the body of ESYM uses the latched word, so a colour write may as well come after it (R65, R172). -/
theorem encodeAt_colorWrite (s : State) {k : Nat} (hk : k % 24 ≠ 0) (n : Nat) (w : ColorWord) :
    encodeAt (s.colorWrite n w) k = (encodeAt s k).colorWrite n w := by
  have hl : latchedWord (s.colorWrite n w) k = latchedWord s k := by simp [latchedWord, hk]
  simp only [encodeAt, dueSymbol, hl]
  rfl

/-- Within a slot ESYM and a colour write commute. -/
theorem execEsym_colorWrite {s t : State} (hk : s.encK % 24 ≠ 0) (n : Nat) (w : ColorWord)
    (h : execEsym s = .next t) : execEsym (s.colorWrite n w) = .next (t.colorWrite n w) := by
  obtain ⟨hb, hcases⟩ := execEsym_next h
  simp only [execEsym, State.enabled, State.colorWrite_encBusy, State.colorWrite_encK, State.colorWrite_cfg, if_pos hb,
    encodeAt_colorWrite s hk]
  rcases hcases with ⟨hlast, rfl⟩ | ⟨hmore, rfl⟩
  · rw [if_pos hlast]
    rfl
  · rw [if_neg hmore]
    rfl

/-! ### What no operation changes -/

/-- No operation changes the configuration (R66), nor what is left of the trace. -/
theorem exec_keeps_cfg_trace {i : Instr} {s t : State} (h : exec i s = .next t) :
    t.cfg = s.cfg ∧ t.trace = s.trace := by
  cases i with
  | reset => simp [execReset_next h]
  | start => rcases execStart_next h with ⟨-, rfl⟩ | ⟨-, rfl⟩ <;> simp
  | wrcolor i w =>
    obtain ⟨-, rfl⟩ := execWrcolor_next h
    simp
  | rdcolor i =>
    obtain ⟨-, rfl⟩ := execRdcolor_next h
    simp
  | rdsnap => simp [execRdsnap_next h]
  | captick => rcases execCaptick_next h with ⟨-, rfl⟩ | ⟨-, rfl⟩ <;> simp
  | edge => simp [execEdge_next h]
  | tedge =>
    obtain ⟨-, rfl⟩ := execTedge_next h
    simp
  | tovf =>
    obtain ⟨-, rfl⟩ := execTovf_next h
    simp
  | period =>
    obtain ⟨-, rfl⟩ := execPeriod_next h
    simp
  | eht =>
    obtain ⟨-, -, rfl⟩ := execEht_next h
    simp
  | etc =>
    obtain ⟨-, -, rfl⟩ := execEtc_next h
    simp
  | esym => obtain ⟨-, ⟨-, rfl⟩ | ⟨-, rfl⟩⟩ := execEsym_next h <;> simp

/-! ### The writers of each element -/

/-- The writers of the capture front end's and the estimator's elements (R69), RESET aside: the other operations are
those that keep both agents' state. -/
theorem exec_tachometer_writers {i : Instr} {s t : State} (h : exec i s = .next t) (hr : i ≠ .reset) :
    (i ≠ .tedge → t.hist = s.hist ∧ t.phase = s.phase) ∧
    (i ≠ .tedge → i ≠ .tovf → t.freq = s.freq ∧ t.ovf = s.ovf) ∧
    (i ≠ .captick → i ≠ .edge → t.capCnt = s.capCnt ∧ t.capLatch = s.capLatch) ∧
    (i ≠ .edge → i ≠ .tedge → t.edgePend = s.edgePend) ∧
    (i ≠ .captick → i ≠ .tovf → t.ovfPend = s.ovfPend) := by
  rcases exec_tachometer h hr with ⟨rfl, -, rfl⟩ | ⟨rfl, -, rfl⟩ | ⟨rfl, rfl⟩ | ⟨rfl, -, rfl⟩ | ⟨rfl, -, rfl⟩ |
    ⟨-, -, -, -, -, ⟨hcnt, hlatch, hedge, hovf⟩, hhist, hphase, hfreq, hflag⟩
  case inr.inr.inr.inr.inr => simp [*]
  all_goals simp

/-- The writers of the two buffers and of the encoder's and the transfer engine's elements (R69), RESET aside, which
alone draws afresh. -/
theorem exec_pipeline_writers {i : Instr} {s t : State} (h : exec i s = .next t) (hr : i ≠ .reset) :
    t.draws = s.draws ∧
    ((∀ idx w, i ≠ .wrcolor idx w) → t.color = s.color) ∧
    (i ≠ .start → i ≠ .esym → t.tbuf = s.tbuf) ∧
    (i ≠ .start → i ≠ .eht → i ≠ .etc → i ≠ .esym → keepsEncoder s t) ∧
    (i ≠ .start → i ≠ .period → i ≠ .eht → t.htPend = s.htPend) ∧
    (i ≠ .start → i ≠ .period → i ≠ .etc → t.tcPend = s.tcPend) ∧
    (i ≠ .start → t.run = s.run ∧ t.htEn = s.htEn ∧ t.tcEn = s.tcEn) := by
  cases i with
  | reset => exact absurd rfl hr
  | start => rcases execStart_next h with ⟨-, rfl⟩ | ⟨-, rfl⟩ <;> simp
  | wrcolor i w =>
    obtain ⟨-, rfl⟩ := execWrcolor_next h
    simp [keepsEncoder]
  | rdcolor i =>
    obtain ⟨-, rfl⟩ := execRdcolor_next h
    simp [keepsEncoder]
  | rdsnap => simp [execRdsnap_next h, keepsEncoder]
  | captick => rcases execCaptick_next h with ⟨-, rfl⟩ | ⟨-, rfl⟩ <;> simp [keepsEncoder]
  | edge => simp [execEdge_next h, keepsEncoder]
  | tedge =>
    obtain ⟨-, rfl⟩ := execTedge_next h
    simp [keepsEncoder]
  | tovf =>
    obtain ⟨-, rfl⟩ := execTovf_next h
    simp [keepsEncoder]
  | period =>
    obtain ⟨-, rfl⟩ := execPeriod_next h
    simp [keepsEncoder]
  | eht =>
    obtain ⟨-, -, rfl⟩ := execEht_next h
    simp
  | etc =>
    obtain ⟨-, -, rfl⟩ := execEtc_next h
    simp
  | esym => obtain ⟨-, ⟨-, rfl⟩ | ⟨-, rfl⟩⟩ := execEsym_next h <;> simp

/-! ### Bit periods in a row -/

/-- The transfer buffer is longer than one bank (R8, R9). -/
theorem bankSyms_lt_tbufSyms {c : Config} (h : c.WellFormed) : bankSyms c < tbufSyms c := by
  have := bankSyms_pos h
  rw [tbufSyms]
  omega

/-- What `n` bit periods of a running engine do to it and to a refill in progress: DMA_POS advances circularly, and
the refill stays where it was (R200). -/
structure PeriodsRun (s t : State) (n : Nat) : Prop where
  cfg : t.cfg = s.cfg
  run : t.run = true
  htEn : t.htEn = s.htEn
  encBusy : t.encBusy = s.encBusy
  encBank : t.encBank = s.encBank
  dmaPos : t.dmaPos = (s.dmaPos + n) % tbufSyms s.cfg

/-- Two runs of bit periods in a row. -/
theorem PeriodsRun.trans {s t u : State} {m n : Nat} (h1 : PeriodsRun s t m) (h2 : PeriodsRun t u n) :
    PeriodsRun s u (m + n) where
  cfg := h2.cfg.trans h1.cfg
  run := h2.run
  htEn := h2.htEn.trans h1.htEn
  encBusy := h2.encBusy.trans h1.encBusy
  encBank := h2.encBank.trans h1.encBank
  dmaPos := by rw [h2.dmaPos, h1.dmaPos, h1.cfg, Nat.mod_add_mod, Nat.add_assoc]

/-- A running engine completes its next bit period, emitting the symbol at DMA_POS (R200). -/
theorem exec_period {s : State} (hr : s.run = true) :
    ∃ t, exec .period s = .next t ∧ t.wire = s.wire ++ [s.tbufRead s.dmaPos] ∧ t.htPend = htPendAfter s ∧
      PeriodsRun s t 1 :=
  ⟨_, if_pos hr, rfl, rfl, rfl, hr, rfl, rfl, rfl, rfl⟩

/-- A running engine completes any number of bit periods, whatever the encoder does not do (R201, R205). -/
theorem runOps_periods {s : State} (hr : s.run = true) (hp : s.dmaPos < tbufSyms s.cfg) (n : Nat) :
    ∃ t, runOps (List.replicate n .period) s = .next t ∧ PeriodsRun s t n := by
  induction n with
  | zero => exact ⟨s, rfl, rfl, hr, rfl, rfl, rfl, (Nat.mod_eq_of_lt hp).symm⟩
  | succ n ih =>
    obtain ⟨t, ht, hn⟩ := ih
    obtain ⟨u, hu, -, -, h1⟩ := exec_period hn.run
    rw [List.replicate_succ', runOps_append ht, runOps_cons hu]
    exact ⟨u, rfl, hn.trans h1⟩

/-- A half cycle from the transfer buffer's beginning leaves DMA_POS at bank 1 with the half-consumed notification
raised (R200, R201). -/
theorem runOps_halfCycle {s : State} (hc : s.cfg.WellFormed) (hr : s.run = true) (ha : s.htEn = true)
    (hp : s.dmaPos = 0) :
    ∃ t, runOps (List.replicate (bankSyms s.cfg) .period) s = .next t ∧ t.htPend = true ∧
      PeriodsRun s t (bankSyms s.cfg) := by
  have hpos := bankSyms_pos hc
  have hlt := bankSyms_lt_tbufSyms hc
  obtain ⟨t, ht, hn⟩ := runOps_periods hr (by omega) (bankSyms s.cfg - 1)
  obtain ⟨u, hu, -, hpend, h1⟩ := exec_period hn.run
  have hlast : t.dmaPos = bankSyms t.cfg - 1 := by
    rw [hn.dmaPos, hn.cfg, hp, Nat.zero_add, Nat.mod_eq_of_lt (by omega)]
  have hlen : bankSyms s.cfg = bankSyms s.cfg - 1 + 1 := by omega
  rw [hlen, List.replicate_succ', runOps_append ht, runOps_cons hu]
  exact ⟨u, rfl, by simp [hpend, htPendAfter, hlast, hn.htEn, ha], hn.trans h1⟩

/-- START makes a stopped engine run from position 0 with no refill in progress (R231). -/
theorem exec_start_of_stopped {s : State} (h : s.run = false) :
    ∃ t, exec .start s = .next t ∧ t.cfg = s.cfg ∧ t.run = true ∧ t.htEn = true ∧ t.encBusy = false ∧ t.dmaPos = 0 :=
  ⟨_, if_neg (by simp [h]), prefill_cfg s, rfl, rfl, rfl, rfl⟩

/-- EHT with its guard begins bank 0's refill and leaves the engine alone (R170). -/
theorem exec_eht_of_enabled {s : State} (hp : s.htPend = true) (hb : s.encBusy = false) :
    ∃ t, exec .eht s = .next t ∧ t.encBusy = true ∧ t.encBank = .bank0 ∧ t.cfg = s.cfg ∧ t.run = s.run ∧
      t.dmaPos = s.dmaPos :=
  ⟨_, if_pos (by simp [State.enabled, hp, hb]), rfl, rfl, rfl, rfl, rfl⟩

/-! ### The obligations -/

/-- Settles O5: the encoder's words decode to their operations, and taking an offered word off restores the trace. -/
theorem stepRunsTheDecodedOperation : Obligations.StepRunsTheDecodedOperation := by
  refine ⟨fun s w rest i => step_of_decode, fun s i hc => ?_⟩
  rw [State.withFetchWord, tableWord_toNat]
  exact step_of_decode (s := s.offer (encode i)) hc rfl (decode_encode i)

/-- Settles O30: within a slot the colour write commutes with ESYM, and what it writes none of the four reads. -/
theorem slotIsNotTornByAColourWrite : Obligations.SlotIsNotTornByAColourWrite := by
  intro s i w hb hk hi
  obtain ⟨t, ht, -⟩ := exec_guarded (g := .esym) hb
  have hw : exec (.wrcolor i w) s = .next (s.colorWrite i.toNat w) := if_neg (Nat.not_le.mpr hi)
  have hu : exec .esym (s.colorWrite i.toNat w) = .next (t.colorWrite i.toNat w) := execEsym_colorWrite hk _ _ ht
  exact ⟨t, t.colorWrite i.toNat w, ht, (runOps_cons hw).trans (runOps_cons hu),
    State.tbufRead_congr rfl rfl, rfl, rfl, rfl⟩

/-- Settles O46: a step runs one operation in the state with the first word off the trace, and the operation keeps the
configuration and the rest. -/
theorem configurationNeverChanges : Obligations.ConfigurationNeverChanges := by
  refine ⟨fun _ _ _ => exec_keeps_cfg_trace, fun s t h => ?_⟩
  obtain ⟨-, w, rest, i, hw, -, he⟩ := step_next h
  obtain ⟨hcfg, htrace⟩ := exec_keeps_cfg_trace he
  exact ⟨hcfg, w, by rw [hw, htrace]⟩

/-- Settles O47, the tachometer's elements and the pipeline's taken together. -/
theorem eachElementHasItsWriters : Obligations.EachElementHasItsWriters := by
  intro i s t h hr
  obtain ⟨hhist, hfreq, hcap, hedge, hovf⟩ := exec_tachometer_writers h hr
  obtain ⟨hdraws, hcolor, htbuf, henc, hht, htc, hrun⟩ := exec_pipeline_writers h hr
  exact ⟨fun hw => State.colorRead_congr (hcolor hw) hdraws, fun h1 h2 => State.tbufRead_congr (htbuf h1 h2) hdraws,
    hhist, hfreq, hcap, hedge, hovf, henc, hht, htc, hrun⟩

/-- Settles O36: EHT begins bank 0's refill as the engine enters bank 1, and another half cycle then passes without an
ESYM, so that the engine reads bank 0's first position while the refill is still at its beginning. -/
theorem underrunsAreAdmitted : Obligations.UnderrunsAreAdmitted := by
  intro c hc
  obtain ⟨s1, h1, hcfg1, hrun1, hen1, hbusy1, hpos1⟩ := exec_start_of_stopped (s := State.resetWith c) rfl
  obtain rfl : s1.cfg = c := hcfg1
  obtain ⟨s2, h2, hpend, p2⟩ := runOps_halfCycle hc hrun1 hen1 hpos1
  obtain ⟨s3, h3, hbusy3, hbank3, hcfg3, hrun3, hpos3⟩ := exec_eht_of_enabled hpend (p2.encBusy.trans hbusy1)
  have hlt := bankSyms_lt_tbufSyms hc
  have hhalf : s3.dmaPos = bankSyms s1.cfg := by
    rw [hpos3, p2.dmaPos, hpos1, Nat.zero_add, Nat.mod_eq_of_lt hlt]
  have hcfg : s3.cfg = s1.cfg := hcfg3.trans p2.cfg
  obtain ⟨u, h4, p4⟩ := runOps_periods (hrun3.trans p2.run) (by rwa [hhalf, hcfg]) (bankSyms s1.cfg)
  obtain ⟨t, ht, hwire, -⟩ := exec_period p4.run
  have hzero : u.dmaPos = 0 := by
    rw [p4.dmaPos, hhalf, hcfg, tbufSyms, ← Nat.two_mul, Nat.mod_self]
  refine ⟨List.replicate (bankSyms s1.cfg) .period ++ .eht :: List.replicate (bankSyms s1.cfg) .period, u, t, ?_,
    p4.encBusy.trans hbusy3, ?_, ht, hwire⟩
  · rw [runOps_cons h1, runOps_append h2, runOps_cons h3, h4]
  · simp [live, hzero, p4.encBank, hbank3, Bank.index]

end Sys2Proof.Machine
end

section
/-! PROOFS. The encoding (30_encoding R80, R81, R85 to R89): the decoder's three answers said once, each with what it
means for the word's fields, and the table's rows in terms of the same fields; then the order of a colour slot and the
symbols on WIRE. -/

namespace Sys2Proof.Machine

/-! ### The fields of a word and of an operation -/

/-- An operation's word is the one whose three fields are the opcode and the operands (R85). -/
theorem encode_eq_iff {i : Instr} {w : OpWord} :
    encode i = w ↔ opcodeOf i = opField w ∧ operandA i = aField w ∧ operandB i = bField w := by
  constructor
  · rintro rfl
    simp
  · rintro ⟨ho, ha, hb⟩
    rw [encode, ho, ha, hb, append_of_fields]

theorem operandA_of_usesA_eq_false {i : Instr} (h : usesA i = false) : operandA i = 0 := by
  cases i
  case wrcolor | rdcolor => cases h
  all_goals rfl

theorem operandB_of_usesB_eq_false {i : Instr} (h : usesB i = false) : operandB i = 0 := by
  cases i
  case wrcolor => cases h
  all_goals rfl

/-- No operation has an operand in `B` alone (R86). -/
theorem usesB_eq_false_of_usesA_eq_false {i : Instr} (h : usesA i = false) : usesB i = false := by
  cases i
  case wrcolor => cases h
  all_goals rfl

/-- The fields of a word that the operation does not use are zero (R88). -/
def unusedFieldsZero (i : Instr) (w : OpWord) : Prop :=
  (usesA i = false → aField w = 0) ∧ (usesB i = false → bField w = 0)

theorem unusedFieldsZero_encode (i : Instr) : unusedFieldsZero i (encode i) := by
  simpa [unusedFieldsZero] using And.intro (operandA_of_usesA_eq_false (i := i)) (operandB_of_usesB_eq_false (i := i))

/-! ### What the opcode decides -/

theorem usesA_eq_opcode (i : Instr) : usesA i = (opcodeOf i == 0x03 || opcodeOf i == 0x04) := by
  cases i <;> rfl

theorem usesB_eq_opcode (i : Instr) : usesB i = (opcodeOf i == 0x03) := by
  cases i <;> rfl

/-- A row of the table fixes `OP` and the fields that its operation does not use (R89). -/
theorem tableRow_eq (i : Instr) :
    tableRow i =
      ⟨BitVec.allOnes 8 ++ (if usesA i then 0#24 else BitVec.allOnes 24) ++
          (if usesB i then 0#32 else BitVec.allOnes 32),
        opcodeOf i ++ 0#24 ++ 0#32⟩ := by
  cases i
  case wrcolor | rdcolor =>
    simp only [usesA, usesB, opcodeOf, if_true, Bool.false_eq_true, if_false]
    rfl
  all_goals rfl

theorem unusedFieldsZero_congr {i j : Instr} (h : opcodeOf i = opcodeOf j) (w : OpWord) :
    unusedFieldsZero i w ↔ unusedFieldsZero j w := by
  simp only [unusedFieldsZero, usesA_eq_opcode, usesB_eq_opcode, h]

/-- Operations of one opcode share a row. -/
theorem tableRow_congr {i j : Instr} (h : opcodeOf i = opcodeOf j) : tableRow i = tableRow j := by
  simp only [tableRow_eq, usesA_eq_opcode, usesB_eq_opcode, h]

/-- Three fields side by side are equal field by field. -/
theorem append_fields_inj {o o' : BitVec 8} {a a' : BitVec 24} {b b' : BitVec 32} :
    o ++ a ++ b = o' ++ a' ++ b' ↔ o = o' ∧ a = a' ∧ b = b' := by
  constructor
  · intro h
    obtain ⟨ho, ha, hb⟩ := fields_of_append o a b
    obtain ⟨ho', ha', hb'⟩ := fields_of_append o' a' b'
    exact ⟨by rw [← ho, h, ho'], by rw [← ha, h, ha'], by rw [← hb, h, hb']⟩
  · rintro ⟨rfl, rfl, rfl⟩
    rfl

/-- A field under its part of a row's mask is zero: always where the field is used, else iff the field is. -/
theorem and_fieldMask_eq_zero {n : Nat} (x : BitVec n) (used : Bool) :
    x &&& (if used then 0#n else BitVec.allOnes n) = 0#n ↔ (used = false → x = 0) := by
  cases used <;> simp

/-- A word matches an operation's row iff it has the opcode and zeros in the fields that the operation does not use
(R88, R89). -/
theorem tableRow_matches_iff {i : Instr} {w : OpWord} :
    (tableRow i).matches w = true ↔ opcodeOf i = opField w ∧ unusedFieldsZero i w := by
  rw [tableRow_eq, TableRow.matches, beq_iff_eq]
  nth_rw 1 [← append_of_fields w]
  rw [BitVec.and_append, BitVec.and_append, append_fields_inj, and_fieldMask_eq_zero, and_fieldMask_eq_zero,
    BitVec.and_allOnes, eq_comm (a := opField w)]
  rfl

/-! ### The decoder's answers -/

/-- What each answer of the decoder says of the word (R85 to R88). -/
def answerFits (w : OpWord) : Except Reject Instr → Prop
  | .ok i => encode i = w
  | .error .reservedField => ∃ i, opcodeOf i = opField w ∧ ¬unusedFieldsZero i w
  | .error .reservedOp => ∀ i, opcodeOf i ≠ opField w

/-- The arm of an operation without operands. -/
theorem noOperands_fits {i : Instr} {w : OpWord} (ho : (opField w).toNat = (opcodeOf i).toNat)
    (hA : usesA i = false) : answerFits w (noOperands w i) := by
  have hop : opcodeOf i = opField w := BitVec.eq_of_toNat_eq ho.symm
  have hB := usesB_eq_false_of_usesA_eq_false hA
  unfold noOperands
  split
  next h =>
    exact encode_eq_iff.mpr
      ⟨hop, (operandA_of_usesA_eq_false hA).trans h.1.symm, (operandB_of_usesB_eq_false hB).trans h.2.symm⟩
  next h => exact ⟨i, hop, fun hz => h ⟨hz.1 hA, hz.2 hB⟩⟩

/-- The arm of an operation whose only operand is `A`. -/
theorem onlyA_fits {i : Instr} {w : OpWord} (ho : (opField w).toNat = (opcodeOf i).toNat)
    (hA : operandA i = aField w) (hB : usesB i = false) : answerFits w (onlyA w i) := by
  have hop : opcodeOf i = opField w := BitVec.eq_of_toNat_eq ho.symm
  unfold onlyA
  split
  next h => exact encode_eq_iff.mpr ⟨hop, hA, (operandB_of_usesB_eq_false hB).trans h.symm⟩
  next h => exact ⟨i, hop, fun hz => h (hz.2 hB)⟩

/-- Every answer of the decoder fits the word, arm by arm. -/
theorem decode_fits (w : OpWord) : answerFits w (decode w) := by
  unfold decode
  split
  case h_3 ho => exact encode_eq_iff.mpr ⟨BitVec.eq_of_toNat_eq ho.symm, rfl, rfl⟩
  case h_4 ho => exact onlyA_fits ho rfl rfl
  case h_14 =>
    intro i hi
    have hn := congrArg BitVec.toNat hi.symm
    cases i <;> exact absurd hn (by assumption)
  all_goals exact noOperands_fits (by assumption) rfl

/-- A word that decodes to an operation is that operation's word. -/
theorem encode_of_decode {w : OpWord} {i : Instr} (h : decode w = .ok i) : encode i = w := by
  have hf := decode_fits w
  rwa [h] at hf

/-- A word refused as ReservedField has an assigned opcode and a nonzero field that it does not use. -/
theorem exists_opcode_of_reservedField {w : OpWord} (h : decode w = .error .reservedField) :
    ∃ i, opcodeOf i = opField w ∧ ¬unusedFieldsZero i w := by
  have hf := decode_fits w
  rwa [h] at hf

/-- A word refused as ReservedOp has no operation's opcode. -/
theorem opcode_ne_of_reservedOp {w : OpWord} (h : decode w = .error .reservedOp) (i : Instr) :
    opcodeOf i ≠ opField w := by
  have hf := decode_fits w
  rw [h] at hf
  exact hf i

/-- A word that decodes to an operation matches the operation's row. -/
theorem tableRow_matches_of_decode {w : OpWord} {i : Instr} (h : decode w = .ok i) : (tableRow i).matches w = true := by
  obtain rfl := encode_of_decode h
  exact tableRow_matches_iff.mpr ⟨(opField_encode i).symm, unusedFieldsZero_encode i⟩

/-- A word with an operation's opcode decodes, to an operation of that opcode, exactly when the fields that the
operation does not use are zero; else it is refused as ReservedField (R88). -/
theorem decode_of_opcode {w : OpWord} {i : Instr} (ho : opcodeOf i = opField w) :
    (unusedFieldsZero i w ∧ ∃ j, decode w = .ok j ∧ opcodeOf j = opcodeOf i) ∨
    (¬unusedFieldsZero i w ∧ decode w = .error .reservedField) := by
  cases hd : decode w with
  | ok j =>
    obtain ⟨hj, hz⟩ := tableRow_matches_iff.mp (tableRow_matches_of_decode hd)
    have hji := hj.trans ho.symm
    exact .inl ⟨(unusedFieldsZero_congr hji w).mp hz, j, rfl, hji⟩
  | error r =>
    cases r with
    | reservedOp => exact absurd ho (opcode_ne_of_reservedOp hd i)
    | reservedField =>
      obtain ⟨j, hj, hz⟩ := exists_opcode_of_reservedField hd
      exact .inr ⟨fun hi => hz ((unusedFieldsZero_congr (hj.trans ho.symm) w).mpr hi), rfl⟩

/-- A word of no operation's opcode is refused as ReservedOp (R88). -/
theorem decode_of_unassigned {w : OpWord} (h : ∀ i, opcodeOf i ≠ opField w) : decode w = .error .reservedOp := by
  cases hd : decode w with
  | ok i => exact absurd (encode_eq_iff.mp (encode_of_decode hd)).1 (h i)
  | error r =>
    cases r with
    | reservedOp => rfl
    | reservedField =>
      obtain ⟨i, hi, -⟩ := exists_opcode_of_reservedField hd
      exact absurd hi (h i)

/-- A word that does not decode is refused by name: the step answers the decoder's own verdict (R88). -/
theorem step_of_reservedOp {s : State} {w : OpWord} {rest : List OpWord} (hc : s.cfg.WellFormed)
    (ht : s.trace = w :: rest) (hd : decode w = .error .reservedOp) : step s = .refused .reservedOp := by
  simp only [step, fetch, if_pos hc, ht, hd]

theorem step_of_reservedField {s : State} {w : OpWord} {rest : List OpWord} (hc : s.cfg.WellFormed)
    (ht : s.trace = w :: rest) (hd : decode w = .error .reservedField) : step s = .refused .reservedField := by
  simp only [step, fetch, if_pos hc, ht, hd]

/-! ### A colour slot and the output stream -/

/-- The bit of a colour word that place `k` of its slot carries: green [23:16] from its top bit down, then blue [15:8],
then red [7:0] (R80, R174). -/
theorem colorBit_of_place (w : ColorWord) {k : Nat} (hk : k < 24) :
    (w.setWidth 24).getLsbD (23 - k) =
      if k < 8 then (w.extractLsb' 16 8).getLsbD (7 - k)
      else if k < 16 then (w.extractLsb' 8 8).getLsbD (15 - k)
      else (w.extractLsb' 0 8).getLsbD (23 - k) := by
  simp only [BitVec.getLsbD_setWidth, BitVec.getLsbD_extractLsb']
  split_ifs with hgreen hblue
  · simp [show 23 - k < 24 by omega, show 7 - k < 8 by omega, show 16 + (7 - k) = 23 - k by omega]
  · simp [show 23 - k < 24 by omega, show 15 - k < 8 by omega, show 8 + (15 - k) = 23 - k by omega]
  · simp [show 23 - k < 24 by omega, show 23 - k < 8 by omega]

/-- The three symbols as numbers: the gap's and the two duty values (R81). -/
theorem toNat_of_isSymbol {c : Config} {v : Symbol} (hc : c.WellFormed) (hv : isSymbol c v) :
    v = 0 ∨ v.toNat = c.duty0 ∨ v.toNat = c.duty1 := by
  rcases hv with rfl | rfl | rfl
  · exact .inl rfl
  · exact .inr (.inl (bitSym_toNat hc false))
  · exact .inr (.inr (bitSym_toNat hc true))

/-- A run keeps the invariant and the configuration. -/
theorem runOps_keeps_inv {ops : List Instr} {s t : State} (hs : s.Inv) (h : runOps ops s = .next t) :
    t.Inv ∧ t.cfg = s.cfg :=
  runOps_keeps (p := fun u => u.Inv ∧ u.cfg = s.cfg) h ⟨hs, rfl⟩ fun _ _ _ _ hu he =>
    ⟨exec_keeps_inv hu.1 he, (exec_keeps_cfg_trace he).1.trans hu.2⟩

/-! ### The obligations -/

/-- Settles O1: decoding undoes encoding, and every answer of the decoder fits the word. -/
theorem encodeAndDecodeAgree : Obligations.EncodeAndDecodeAgree :=
  ⟨decode_encode, fun _ _ => encode_of_decode⟩

/-- Settles O45: the run keeps the invariant, which admits the three symbols only, and the duty values. -/
theorem onlyThreeSymbolsReachTheWire : Obligations.OnlyThreeSymbolsReachTheWire := by
  intro s t ops hs h v hv
  obtain ⟨ht, hcfg⟩ := runOps_keeps_inv hs h
  rw [← hcfg]
  exact toNat_of_isSymbol ht.config (ht.output.wire v hv)

/-- Settles O2: a row is an opcode with its unused fields zero, which is what the decoder checks. -/
theorem decoderFollowsTheTable : Obligations.DecoderFollowsTheTable := by
  intro w
  refine ⟨fun i => tableRow_matches_of_decode, fun i hm => ?_, fun i j hi hj => ?_, fun hnone => ?_⟩
  · obtain ⟨ho, hz⟩ := tableRow_matches_iff.mp hm
    rcases decode_of_opcode ho with ⟨-, j, hd, hj⟩ | ⟨hn, -⟩
    · exact ⟨j, hd, tableRow_congr hj⟩
    · exact absurd hz hn
  · exact tableRow_congr ((tableRow_matches_iff.mp hi).1.trans (tableRow_matches_iff.mp hj).1.symm)
  · cases hd : decode w with
    | ok i => exact nomatch (tableRow_matches_of_decode hd).symm.trans (hnone i)
    | error r => cases r <;> simp

/-- Settles O3: the decoder refuses the word, and the step answers its verdict. -/
theorem reservedWordsAreRefused : Obligations.ReservedWordsAreRefused := by
  intro s w rest hc ht
  refine ⟨fun h => step_of_reservedOp hc ht (decode_of_unassigned h), fun i ho hbad => ?_⟩
  rcases decode_of_opcode ho with ⟨⟨hA, hB⟩, -⟩ | ⟨-, hd⟩
  · rcases hbad with ⟨hu, hne⟩ | ⟨hu, hne⟩
    · exact absurd (hA hu) hne
    · exact absurd (hB hu) hne
  · exact step_of_reservedField hc ht hd

/-- Settles O29: the place's bit of the latched word is that bit of green, blue or red. -/
theorem slotOrderIsGreenBlueRed : Obligations.SlotOrderIsGreenBlueRed := by
  intro s slot k hslot hk
  rw [slotSymbol, symbolOf, if_neg (Nat.not_le.mpr hslot), colorBit_of_place _ hk]

/-- Settles O4: eight words decoded one by one. -/
theorem wordsOfTheSpecDecode : Obligations.WordsOfTheSpecDecode := by
  unfold Obligations.WordsOfTheSpecDecode
  decide

end Sys2Proof.Machine
end

section
/-! PROOFS. The capture front end (40_capture R110 to R114): the rules of CAPTICK and EDGE, then any run between two
EDGEs or RESETs as a division with remainder, its ticks by CAP_PERIOD: the quotient is the overflow events, the remainder
the count. -/

namespace Sys2Proof.Machine

/-! ### The rules of the two operations -/

theorem captureWraps_iff {s : State} : captureWraps s = true ↔ s.capCnt = s.cfg.capPeriod - 1 := by
  simp [captureWraps]

theorem exec_captick_of_last {s : State} (h : s.capCnt = s.cfg.capPeriod - 1) :
    exec .captick s = .next { s with capCnt := 0, ovfPend := true } :=
  if_pos (captureWraps_iff.mpr h)

theorem exec_captick_of_not_last {s : State} (h : s.capCnt ≠ s.cfg.capPeriod - 1) :
    exec .captick s = .next { s with capCnt := s.capCnt + 1 } :=
  if_neg (mt captureWraps_iff.mp h)

theorem exec_edge (s : State) :
    exec .edge s = .next { s with capLatch := s.capCnt, capCnt := 0, edgePend := true } := rfl

/-- What moves only the four elements of the capture front end keeps every other element (R110, R111). -/
theorem keeps_of_capture_moved {s t : State} {cnt latch : Nat} {edge ovf : Bool}
    (h : t = { s with capCnt := cnt, capLatch := latch, edgePend := edge, ovfPend := ovf }) :
    keepsInputs s t ∧ keepsEstimator s t ∧ keepsColor s t ∧ keepsTbuf s t ∧ keepsEncoder s t ∧ keepsEngine s t ∧
      keepsWire s t ∧ keepsResponses s t := by
  subst h
  exact ⟨⟨rfl, rfl, rfl⟩, ⟨rfl, rfl, rfl, rfl⟩, fun _ => State.colorRead_congr rfl rfl _,
    fun _ => State.tbufRead_congr rfl rfl _, ⟨rfl, rfl, rfl, rfl, rfl⟩, ⟨rfl, rfl, rfl, rfl, rfl, rfl⟩, ⟨rfl, rfl⟩, rfl⟩

/-! ### Overflow events of a run -/

/-- An operation adds an overflow event to a run when it is a CAPTICK at the last count. -/
theorem overflows_cons {i : Instr} {rest : List Instr} {s u : State} (h : exec i s = .next u) :
    overflows (i :: rest) s =
      overflows rest u + if i = .captick ∧ captureWraps s = true then 1 else 0 := by
  simp [overflows, runSteps_cons h, List.countP_cons]

theorem overflows_cons_of_ne_captick {i : Instr} {rest : List Instr} {s u : State} (h : exec i s = .next u)
    (hi : i ≠ .captick) : overflows (i :: rest) s = overflows rest u := by
  simp [overflows_cons h, hi]

/-! ### Ticks between two EDGEs or RESETs -/

/-- `n` ticks lead from `s` to `t` with `w` overflow events: the count moves by `n` less `w` whole periods, and stays in
its range (R21, R110). -/
structure TicksRun (s t : State) (n w : Nat) : Prop where
  cfg : t.cfg = s.cfg
  range : t.capCnt < s.cfg.capPeriod
  balance : t.capCnt + s.cfg.capPeriod * w = s.capCnt + n

theorem TicksRun.refl {s : State} (h : s.capCnt < s.cfg.capPeriod) : TicksRun s s 0 0 := ⟨rfl, h, rfl⟩

/-- Two parts of a run in a row. -/
theorem TicksRun.trans {s t u : State} {m n v w : Nat} (h1 : TicksRun s t m v) (h2 : TicksRun t u n w) :
    TicksRun s u (n + m) (w + v) where
  cfg := h2.cfg.trans h1.cfg
  range := h1.cfg ▸ h2.range
  balance := by
    have hb := h2.balance
    rw [h1.cfg] at hb
    rw [Nat.mul_add, ← Nat.add_assoc, hb, Nat.add_right_comm, h1.balance]
    omega

/-- From a cleared counter, the overflow events and the count are quotient and remainder of the ticks (R112, R113). -/
theorem TicksRun.div_mod {s t : State} {n w : Nat} (h : TicksRun s t n w) (h0 : s.capCnt = 0) :
    n / s.cfg.capPeriod = w ∧ n % s.cfg.capPeriod = t.capCnt :=
  (Nat.div_mod_unique (Nat.zero_lt_of_lt h.range)).mpr ⟨by simpa [h0] using h.balance, h.range⟩

/-- An operation between two EDGEs or RESETs: one tick if it is a CAPTICK, one overflow event if that tick wraps. -/
theorem exec_ticksRun {i : Instr} {s t : State} (h : exec i s = .next t) (hr : i ≠ .reset) (he : i ≠ .edge)
    (hs : s.capCnt < s.cfg.capPeriod) :
    TicksRun s t (if i = .captick then 1 else 0) (if i = .captick ∧ captureWraps s = true then 1 else 0) := by
  by_cases hi : i = .captick
  · subst hi
    rcases execCaptick_next h with ⟨hw, rfl⟩ | ⟨hw, rfl⟩
    · have hlast := captureWraps_iff.mp hw
      exact ⟨rfl, Nat.zero_lt_of_lt hs, by simp only [hw, and_self, if_true]; omega⟩
    · have hmore : s.capCnt ≠ s.cfg.capPeriod - 1 := fun hl => by simp [captureWraps_iff.mpr hl] at hw
      exact ⟨rfl, by simp only; omega, by simp [hw]⟩
  · obtain ⟨-, -, hcap, -⟩ := exec_tachometer_writers h hr
    have hcnt := (hcap hi he).1
    exact ⟨(exec_keeps_cfg_trace h).1, hcnt ▸ hs, by simp [hi, hcnt]⟩

/-- A run with no EDGE and no RESET, whatever else happens in it, moves the count by its CAPTICKs. -/
theorem runOps_ticksRun {ops : List Instr} {s t : State} (h : runOps ops s = .next t) (hr : .reset ∉ ops)
    (he : .edge ∉ ops) (hs : s.capCnt < s.cfg.capPeriod) : TicksRun s t (ops.count .captick) (overflows ops s) := by
  induction ops generalizing s with
  | nil =>
    cases h
    exact .refl hs
  | cons i rest ih =>
    obtain ⟨u, hu, hrest⟩ := runOps_cons_next h
    obtain ⟨hri, hrr⟩ := List.ne_and_not_mem_of_not_mem_cons hr
    obtain ⟨hei, her⟩ := List.ne_and_not_mem_of_not_mem_cons he
    have h1 := exec_ticksRun hu hri.symm hei.symm hs
    have h2 := ih hrest hrr her (h1.cfg ▸ h1.range)
    simpa [overflows_cons hu, List.count_cons] using h1.trans h2

/-- An operation that clears no overflow event leaves OVF_PEND set iff it was set or the operation is an overflow. -/
theorem exec_ovfPend_iff {i : Instr} {s t : State} (h : exec i s = .next t) (hr : i ≠ .reset) (ho : i ≠ .tovf) :
    t.ovfPend = true ↔ s.ovfPend = true ∨ (i = .captick ∧ captureWraps s = true) := by
  by_cases hi : i = .captick
  · subst hi
    rcases execCaptick_next h with ⟨hw, rfl⟩ | ⟨hw, rfl⟩ <;> simp [hw]
  · obtain ⟨-, -, -, -, hovf⟩ := exec_tachometer_writers h hr
    simp [hovf hi ho, hi]

/-- After a run with no TOVF and no RESET, OVF_PEND is set iff it was set before or the run holds an overflow event. -/
theorem runOps_ovfPend_iff {ops : List Instr} {s t : State} (h : runOps ops s = .next t) (hr : .reset ∉ ops)
    (ho : .tovf ∉ ops) : t.ovfPend = true ↔ s.ovfPend = true ∨ 0 < overflows ops s := by
  induction ops generalizing s with
  | nil =>
    cases h
    simp [overflows, runSteps]
  | cons i rest ih =>
    obtain ⟨u, hu, hrest⟩ := runOps_cons_next h
    obtain ⟨hri, hrr⟩ := List.ne_and_not_mem_of_not_mem_cons hr
    obtain ⟨hoi, hor⟩ := List.ne_and_not_mem_of_not_mem_cons ho
    rw [ih hrest hrr hor, exec_ovfPend_iff hu hri.symm hoi.symm, overflows_cons hu]
    split <;> simp [*]

/-- EDGE and RESET clear the counter, overflow nothing, and keep the configuration; EDGE keeps OVF_PEND and RESET clears it
(R49, R111). -/
theorem exec_edge_or_reset_effect {i : Instr} {s t : State} (hi : i = .edge ∨ i = .reset) (h : exec i s = .next t) :
    t.capCnt = 0 ∧ t.cfg = s.cfg ∧ i ≠ .captick ∧ (t.ovfPend = true ↔ i = .edge ∧ s.ovfPend = true) := by
  rcases hi with rfl | rfl
  · simp [execEdge_next h]
  · simp [execReset_next h]

/-! ### CAPTICKs in a row -/

/-- CAPTICKs complete from every state, any number of them, and keep the latched duration and EDGE_PEND (R110). -/
theorem runOps_capticks (s : State) (n : Nat) :
    ∃ t, runOps (List.replicate n .captick) s = .next t ∧ t.capLatch = s.capLatch ∧ t.edgePend = s.edgePend := by
  induction n generalizing s with
  | zero => exact ⟨s, rfl, rfl, rfl⟩
  | succ n ih =>
    obtain ⟨u, hu, -⟩ := exec_captick s
    obtain ⟨t, ht, hlatch, hedge⟩ := ih u
    have hkeep : u.capLatch = s.capLatch ∧ u.edgePend = s.edgePend := by
      rcases execCaptick_next hu with ⟨-, rfl⟩ | ⟨-, rfl⟩ <;> exact ⟨rfl, rfl⟩
    exact ⟨t, (runOps_cons hu).trans ht, hlatch.trans hkeep.1, hedge.trans hkeep.2⟩

/-! ### The obligations -/

/-- Settles O52: the run after the clearing operation divides its CAPTICKs by CAP_PERIOD. -/
theorem overflowsCountTheTicksOfAnyRun : Obligations.OverflowsCountTheTicksOfAnyRun := by
  intro s t i ops hc hi he hr h
  have hP := Config.captureOk_of_wellFormed hc
  obtain ⟨u, hu, hrest⟩ := runOps_cons_next h
  obtain ⟨hcnt, hcfg, hne, hpend⟩ := exec_edge_or_reset_effect hi hu
  obtain ⟨hdiv, hmod⟩ := (runOps_ticksRun hrest hr he (by rw [hcnt, hcfg]; omega)).div_mod hcnt
  rw [hcfg] at hdiv hmod
  have hpos : 0 < overflows ops u ↔ s.cfg.capPeriod ≤ ops.count .captick := by
    rw [← hdiv, Nat.div_pos_iff]
    omega
  rw [overflows_cons_of_ne_captick hu hne]
  exact ⟨hpos, hdiv.symm, fun ho => by rw [runOps_ovfPend_iff hrest hr ho, hpend, hpos], hmod.symm,
    _, exec_edge t, hmod.symm⟩

/-- Settles O10: the statement about any run, for a run of CAPTICKs only. -/
theorem captureMeasuresTicksSinceTheEdge : Obligations.CaptureMeasuresTicksSinceTheEdge := by
  intro s n hc hclear
  obtain ⟨t, ht, hlatch, hedge⟩ := runOps_capticks { s with capLatch := s.capCnt, capCnt := 0, edgePend := true } n
  have hrun : runOps (.edge :: List.replicate n .captick) s = .next t := (runOps_cons (exec_edge s)).trans ht
  obtain ⟨-, -, hpend, hcnt, hnext⟩ := overflowsCountTheTicksOfAnyRun s t .edge (List.replicate n .captick) hc (.inl rfl)
    (by simp) (by simp) hrun
  simp only [List.count_replicate_self] at hpend hcnt hnext
  exact ⟨t, hrun, hcnt, by simpa [hclear] using hpend (by simp), hlatch, hedge, hnext⟩

/-- Settles O8, at the last count and below it. -/
theorem captickCountsAndWraps : Obligations.CaptickCountsAndWraps := by
  refine ⟨by decide, fun s => ?_⟩
  by_cases hlast : s.capCnt = s.cfg.capPeriod - 1
  · exact ⟨_, exec_captick_of_last hlast, fun _ => ⟨rfl, rfl⟩, fun h => absurd hlast h, rfl, rfl,
      keeps_of_capture_moved rfl⟩
  · exact ⟨_, exec_captick_of_not_last hlast, fun h => absurd h hlast, fun _ => ⟨rfl, rfl⟩, rfl, rfl,
      keeps_of_capture_moved rfl⟩

/-- Settles O9, by EDGE's one effect. -/
theorem edgeLatchesTheCount : Obligations.EdgeLatchesTheCount :=
  ⟨by decide, fun s => ⟨_, exec_edge s, rfl, rfl, rfl, rfl, keeps_of_capture_moved rfl⟩⟩

/-- Settles O11: CAPTICK first wraps and EDGE latches 0; EDGE first latches the last count and CAPTICK counts from 0. -/
theorem edgeAndWrapInEitherOrder : Obligations.EdgeAndWrapInEitherOrder := by
  intro s hc hlast
  have hP := Config.captureOk_of_wellFormed hc
  refine ⟨⟨_, (runOps_cons (exec_captick_of_last hlast)).trans (runOps_cons (exec_edge _)), rfl, rfl, rfl, rfl⟩,
    _, (runOps_cons (exec_edge s)).trans (runOps_cons (exec_captick_of_not_last ?_)), rfl, hlast, rfl, rfl⟩
  simp only
  omega

end Sys2Proof.Machine
end

section
/-! PROOFS. The estimator's operations (41_estimator R130, R131): their effects and frames, the history as the last
durations serviced in any run (R151), the isolation of the two tachometer agents (R154), and what FREQ and OVF say of
each other (R150). -/

namespace Sys2Proof.Machine

/-! ### The rules of the two operations -/

theorem exec_tedge {s : State} (h : s.edgePend = true) :
    exec .tedge s = .next { s with
      edgePend := false
      hist := pushHist s.hist s.capLatch
      phase := resolvePhase s.cfg (pushHist s.hist s.capLatch) s.phase
      freq := freqAfterEdge s (resolvePhase s.cfg (pushHist s.hist s.capLatch) s.phase)
      ovf := false } :=
  if_pos h

theorem exec_tovf {s : State} (h : s.ovfPend = true) :
    exec .tovf s = .next { s with ovfPend := false, ovf := true, freq := 0 } :=
  if_pos h

/-- What moves only the estimator's elements and the two pending bits keeps every other element (R130, R131). -/
theorem keeps_of_estimator_moved {s t : State} {edge pend ovf : Bool} {hist : List Nat} {phase : Nat}
    {freq : BitVec 32}
    (h : t = { s with edgePend := edge, ovfPend := pend, hist := hist, phase := phase, freq := freq, ovf := ovf }) :
    keepsInputs s t ∧ keepsColor s t ∧ keepsTbuf s t ∧ keepsEncoder s t ∧ keepsEngine s t ∧ keepsWire s t ∧
      keepsResponses s t := by
  subst h
  exact ⟨⟨rfl, rfl, rfl⟩, fun _ => State.colorRead_congr rfl rfl _, fun _ => State.tbufRead_congr rfl rfl _,
    ⟨rfl, rfl, rfl, rfl, rfl⟩, ⟨rfl, rfl, rfl, rfl, rfl, rfl⟩, ⟨rfl, rfl⟩, rfl⟩

/-! ### The phase and the frequency after TEDGE -/

/-- The best candidate overrides when its confidence exceeds the threshold; else the phase advances by one (R148). -/
theorem resolvePhase_eq (c : Config) (hist : List Nat) (phase : Nat) :
    resolvePhase c hist phase =
      if c.confThreshold < confidence (rank c hist) ∧ (rank c hist).best ≠ (phase + 1) % c.magnets then
        (rank c hist).best
      else (phase + 1) % c.magnets := rfl

/-- The first frequency after an overflow is 0 (R130 step 5). -/
theorem freqAfterEdge_of_ovf {s : State} (h : s.ovf = true) (phase : Nat) : freqAfterEdge s phase = 0 := if_pos h

/-- FREQ holds FREQCALC's value whole (R27, R147). -/
theorem freqAfterEdge_toNat {s : State} (h : s.ovf = false) (phase : Nat) :
    (freqAfterEdge s phase).toNat = freqCalc s.cfg (arcAt s.cfg phase) s.capLatch := by
  have hle := (freqCalc_bounds s.cfg (arcAt s.cfg phase) s.capLatch).2
  have hlt : freqCalc s.cfg (arcAt s.cfg phase) s.capLatch < 2 ^ 32 := by
    rw [freqMax] at hle
    omega
  rw [freqAfterEdge, h, if_neg Bool.false_ne_true, BitVec.toNat_ofNat, Nat.mod_eq_of_lt hlt]

/-- FREQ is 0 after TEDGE exactly when OVF was set before it, since FREQCALC is at least 1 (R147, R150). -/
theorem freqAfterEdge_eq_zero_iff (s : State) (phase : Nat) : freqAfterEdge s phase = 0 ↔ s.ovf = true := by
  refine ⟨fun h => ?_, fun h => freqAfterEdge_of_ovf h phase⟩
  by_contra hovf
  have hpos := (freqCalc_bounds s.cfg (arcAt s.cfg phase) s.capLatch).1
  rw [← freqAfterEdge_toNat (Bool.eq_false_of_not_eq_true hovf), h] at hpos
  exact absurd hpos (by decide)

/-! ### The places of a pushed history -/

theorem getD_pushHist {hist : List Nat} (d : Nat) {j : Nat} (h : j + 1 < hist.length) :
    (pushHist hist d).getD j 0 = hist.getD (j + 1) 0 := by
  have hj : j < (hist.drop 1).length := by
    rw [List.length_drop]
    omega
  rw [pushHist, List.getD_append _ _ _ _ hj, List.getD_eq_getElem?_getD, List.getElem?_drop, Nat.add_comm 1 j,
    List.getD_eq_getElem?_getD]

theorem getD_pushHist_last {hist : List Nat} (d : Nat) :
    (pushHist hist d).getD (hist.length - 1) 0 = d := by
  simp [pushHist]

/-- Pushing durations one by one keeps the last entries of the history followed by them (R151). -/
theorem foldl_pushHist {hist : List Nat} (ds : List Nat) (h : hist ≠ []) :
    ds.foldl pushHist hist = (hist ++ ds).drop ds.length := by
  induction ds generalizing hist with
  | nil => simp
  | cons d ds ih =>
    obtain ⟨a, l, rfl⟩ := List.exists_cons_of_ne_nil h
    rw [List.foldl_cons, ih (by simp [pushHist])]
    simp [pushHist]

theorem length_foldl_pushHist {hist : List Nat} (ds : List Nat) (h : hist ≠ []) :
    (ds.foldl pushHist hist).length = hist.length := by
  simp [foldl_pushHist ds h]

theorem hist_ne_nil {c : Config} {hist : List Nat} (hc : c.WellFormed) (h : hist.length = c.histLen) : hist ≠ [] := by
  have hL := (Config.historyOk_of_wellFormed hc).2.2
  rintro rfl
  rw [List.length_nil] at h
  omega

/-! ### One capture -/

/-- CAPTICKs move neither the history nor the configuration, and count up from a cleared counter (R110, R113). -/
theorem runOps_capticks_from_zero {s : State} {d : Nat} (h0 : s.capCnt = 0) (hd : d < s.cfg.capPeriod) :
    ∃ t, runOps (List.replicate d .captick) s = .next t ∧ t.capCnt = d ∧ t.hist = s.hist ∧ t.cfg = s.cfg := by
  obtain ⟨t, ht, -⟩ := runOps_capticks s d
  have hrun := runOps_ticksRun ht (by simp) (by simp) (by omega)
  have hcnt := (hrun.div_mod h0).2
  rw [List.count_replicate_self, Nat.mod_eq_of_lt hd] at hcnt
  have hhist : t.hist = s.hist := by
    refine runOps_keeps (p := fun u => u.hist = s.hist) ht rfl fun i hi a b ha hab => ?_
    obtain rfl := List.eq_of_mem_replicate hi
    exact ((exec_tachometer_writers hab nofun).1 nofun).1.trans ha
  exact ⟨t, ht, hcnt.symm, hhist, hrun.cfg⟩

/-- One capture of a duration, from tick to service, pushes it and leaves the counter cleared (R111, R130). -/
theorem runOps_capture {s : State} {d : Nat} (h0 : s.capCnt = 0) (hd : d < s.cfg.capPeriod) :
    ∃ t, runOps (List.replicate d .captick ++ [.edge, .tedge]) s = .next t ∧ t.hist = pushHist s.hist d ∧
      t.capCnt = 0 ∧ t.cfg = s.cfg := by
  obtain ⟨u, hu, hcnt, hhist, hcfg⟩ := runOps_capticks_from_zero h0 hd
  rw [runOps_append hu, runOps_cons (exec_edge u), runOps_cons (exec_tedge rfl)]
  exact ⟨_, rfl, by simp only [hhist, hcnt], rfl, hcfg⟩

/-- Captures in a row push their durations in order (R151). -/
theorem runOps_captures {s : State} {ds : List Nat} (h0 : s.capCnt = 0) (hd : ∀ d ∈ ds, d < s.cfg.capPeriod) :
    ∃ t, runOps (ds.flatMap fun d => List.replicate d .captick ++ [.edge, .tedge]) s = .next t ∧
      t.hist = ds.foldl pushHist s.hist ∧ t.capCnt = 0 := by
  induction ds generalizing s with
  | nil => exact ⟨s, rfl, rfl, h0⟩
  | cons d ds ih =>
    obtain ⟨u, hu, hhist, hcnt, hcfg⟩ := runOps_capture h0 (hd d (.head _))
    obtain ⟨t, ht, hlast, hzero⟩ := ih hcnt fun x hx => hcfg ▸ hd x (.tail _ hx)
    exact ⟨t, (runOps_append hu).trans ht, by rw [hlast, hhist, List.foldl_cons], hzero⟩

/-! ### The serviced durations of any run -/

theorem servicedDurations_cons {i : Instr} {rest : List Instr} {s u : State} (h : exec i s = .next u) :
    servicedDurations (i :: rest) s =
      if i = .tedge then s.capLatch :: servicedDurations rest u else servicedDurations rest u := by
  rw [servicedDurations, runSteps_cons h, List.filterMap_cons]
  split <;> simp_all [servicedDurations]

/-- A completed run services one duration for each TEDGE. -/
theorem servicedDurations_length {ops : List Instr} {s t : State} (h : runOps ops s = .next t) :
    (servicedDurations ops s).length = ops.count .tedge := by
  induction ops generalizing s with
  | nil => rfl
  | cons i rest ih =>
    obtain ⟨u, hu, hrest⟩ := runOps_cons_next h
    rw [servicedDurations_cons hu, List.count_cons, ← ih hrest]
    split <;> simp [*]

/-- A run without RESET, whatever else happens in it, pushes the durations that it services (R69, R130). -/
theorem runOps_hist {ops : List Instr} {s t : State} (h : runOps ops s = .next t) (hr : .reset ∉ ops) :
    t.hist = (servicedDurations ops s).foldl pushHist s.hist := by
  induction ops generalizing s with
  | nil =>
    cases h
    rfl
  | cons i rest ih =>
    obtain ⟨u, hu, hrest⟩ := runOps_cons_next h
    obtain ⟨hri, hrr⟩ := List.ne_and_not_mem_of_not_mem_cons hr
    rw [ih hrest hrr, servicedDurations_cons hu]
    by_cases hi : i = .tedge
    · subst hi
      rw [if_pos rfl, List.foldl_cons, (execTedge_next hu).2]
    · rw [if_neg hi, ((exec_tachometer_writers hu hri.symm).1 hi).1]

/-- Places of a history that began with zeros: the `k`-th from its end is the `k`-th serviced duration from the end, and
0 where fewer were serviced (R49, R151). -/
theorem getElem?_drop_replicate_append {L k : Nat} (ds : List Nat) (hk : k < L) :
    ((List.replicate L 0 ++ ds).drop ds.length)[L - 1 - k]? =
      if k < ds.length then ds[ds.length - 1 - k]? else some 0 := by
  rw [List.getElem?_drop]
  split
  · rw [List.getElem?_append_right (by rw [List.length_replicate]; omega), List.length_replicate,
      show ds.length + (L - 1 - k) - L = ds.length - 1 - k by omega]
  · rw [List.getElem?_append_left (by rw [List.length_replicate]; omega), List.getElem?_replicate, if_pos (by omega)]

/-! ### The two agents and the rest of the block -/

/-- Two states agree on the configuration and on the two tachometer agents' state (R154). -/
def tachometerAgrees (s t : State) : Prop := t.cfg = s.cfg ∧ keepsCapture s t ∧ keepsEstimator s t

theorem tachometerAgrees.symm {s t : State} (h : tachometerAgrees s t) : tachometerAgrees t s := by
  obtain ⟨hc, ⟨h1, h2, h3, h4⟩, h5, h6, h7, h8⟩ := h
  exact ⟨hc.symm, ⟨h1.symm, h2.symm, h3.symm, h4.symm⟩, h5.symm, h6.symm, h7.symm, h8.symm⟩

theorem tachometerAgrees.trans {s t u : State} (h : tachometerAgrees s t) (h' : tachometerAgrees t u) :
    tachometerAgrees s u := by
  obtain ⟨hc, ⟨h1, h2, h3, h4⟩, h5, h6, h7, h8⟩ := h
  obtain ⟨hc', ⟨h1', h2', h3', h4'⟩, h5', h6', h7', h8'⟩ := h'
  exact ⟨hc'.trans hc, ⟨h1'.trans h1, h2'.trans h2, h3'.trans h3, h4'.trans h4⟩, h5'.trans h5, h6'.trans h6,
    h7'.trans h7, h8'.trans h8⟩

/-- The operations of the other agents keep the two tachometer agents' state (R69). -/
theorem exec_tachometerAgrees {i : Instr} {s t : State} (h : exec i s = .next t) (hr : i ≠ .reset)
    (hc : i ≠ .captick) (he : i ≠ .edge) (ht : i ≠ .tedge) (ho : i ≠ .tovf) : tachometerAgrees s t := by
  obtain ⟨hhist, hfreq, hcap, hedge, hovf⟩ := exec_tachometer_writers h hr
  exact ⟨(exec_keeps_cfg_trace h).1, ⟨(hcap hc he).1, (hcap hc he).2, hedge he ht, hovf hc ho⟩,
    (hhist ht).1, (hhist ht).2, hfreq ht ho⟩

/-- The tachometer's state after an operation is a function of its state before it (R154). -/
theorem exec_keeps_agreement {i : Instr} {s s' t t' : State} (hs : tachometerAgrees s s') (h : exec i s = .next t)
    (h' : exec i s' = .next t') : tachometerAgrees t t' := by
  have ⟨hcfg, ⟨hcnt, hlatch, hedge, hpend⟩, hest⟩ := hs
  have ⟨hhist, hphase, hfreq, hovf⟩ := hest
  cases i
  case reset =>
    obtain rfl := execReset_next h
    obtain rfl := execReset_next h'
    exact ⟨hcfg, ⟨rfl, rfl, rfl, rfl⟩, by simp [hcfg], rfl, rfl, rfl⟩
  case captick =>
    have hwrap : captureWraps s' = captureWraps s := by simp [captureWraps, hcnt, hcfg]
    rcases execCaptick_next h with ⟨hw, rfl⟩ | ⟨hw, rfl⟩
    · obtain ⟨-, rfl⟩ := (execCaptick_next h').resolve_right (by simp [hwrap, hw])
      exact ⟨hcfg, ⟨rfl, hlatch, hedge, rfl⟩, hest⟩
    · obtain ⟨-, rfl⟩ := (execCaptick_next h').resolve_left (by simp [hwrap, hw])
      exact ⟨hcfg, ⟨congrArg (· + 1) hcnt, hlatch, hedge, hpend⟩, hest⟩
  case edge =>
    obtain rfl := execEdge_next h
    obtain rfl := execEdge_next h'
    exact ⟨hcfg, ⟨rfl, hcnt, rfl, hpend⟩, hest⟩
  case tedge =>
    obtain ⟨-, rfl⟩ := execTedge_next h
    obtain ⟨-, rfl⟩ := execTedge_next h'
    refine ⟨hcfg, ⟨hcnt, hlatch, rfl, hpend⟩, ?_, ?_, ?_, rfl⟩ <;>
      simp only [freqAfterEdge, hcfg, hlatch, hhist, hphase, hovf]
  case tovf =>
    obtain ⟨-, rfl⟩ := execTovf_next h
    obtain ⟨-, rfl⟩ := execTovf_next h'
    exact ⟨hcfg, ⟨hcnt, hlatch, hedge, rfl⟩, hhist, hphase, rfl, rfl⟩
  all_goals
    exact ((exec_tachometerAgrees h nofun nofun nofun nofun nofun).symm.trans hs).trans
      (exec_tachometerAgrees h' nofun nofun nofun nofun nofun)

/-- Agreeing states enable the same tachometer operations, and CAPTICK and EDGE always complete (R154). -/
theorem exec_completes_iff_of_agreement {i : Instr} {s s' : State} (hs : tachometerAgrees s s')
    (hi : i = .captick ∨ i = .edge ∨ i = .tedge ∨ i = .tovf) :
    (∃ t, exec i s = .next t) ↔ ∃ t, exec i s' = .next t := by
  obtain ⟨-, ⟨-, -, hedge, hpend⟩, -⟩ := hs
  rw [(operationsStopExactlyWhereTheSpecSays i s).1, (operationsStopExactlyWhereTheSpecSays i s').1]
  rcases hi with rfl | rfl | rfl | rfl <;> simp [guardOf, hostIndex, State.enabled, hedge, hpend]

/-! ### FREQ and OVF -/

/-- Every operation moves the relation of FREQ and OVF by its history bit (R150). -/
theorem exec_freqOvfRelation {i : Instr} {s t : State} {first : Bool} (hs : freqOvfRelation first s)
    (h : exec i s = .next t) : freqOvfRelation (firstEdgeAfter i s first) t := by
  cases i
  case reset => simp [execReset_next h, freqOvfRelation, firstEdgeAfter]
  case tedge =>
    simpa [(execTedge_next h).2, freqOvfRelation, firstEdgeAfter] using freqAfterEdge_eq_zero_iff s _
  case tovf => simp [(execTovf_next h).2, freqOvfRelation, firstEdgeAfter]
  all_goals
    obtain ⟨-, hkeep, -⟩ := exec_tachometer_writers h nofun
    obtain ⟨hfreq, hovf⟩ := hkeep nofun nofun
    simpa [freqOvfRelation, firstEdgeAfter, hfreq, hovf] using hs

/-! ### The obligations -/

/-- Settles O12, by TEDGE's one effect: the pushed history, the phase resolved from it, and the frequency read there. -/
theorem tedgeServicesACapturedEdge : Obligations.TedgeServicesACapturedEdge := by
  refine ⟨by decide, fun s => ⟨exec_instrOf_of_not_enabled (g := .tedge), fun hp hlen hL => ⟨_, exec_tedge hp, rfl, ?_,
    ?_, ?_, ?_, ?_, fun h => freqAfterEdge_of_ovf h _, fun h => freqAfterEdge_toNat h _, rfl, rfl, rfl, rfl,
    keeps_of_estimator_moved rfl⟩⟩⟩
  · exact (pushHist_length _ (by omega)).trans hlen
  · exact fun j hj => getD_pushHist _ (hlen ▸ hj)
  · exact hlen ▸ getD_pushHist_last _
  · exact fun h => (resolvePhase_eq _ _ _).trans (if_pos h)
  · exact fun h => (resolvePhase_eq _ _ _).trans (if_neg h)

/-- Settles O13, by TOVF's one effect. -/
theorem tovfServicesAnOverflow : Obligations.TovfServicesAnOverflow :=
  ⟨by decide, fun _ => ⟨exec_instrOf_of_not_enabled (g := .tovf), fun hp => ⟨_, exec_tovf hp,
    rfl, rfl, rfl, rfl, rfl, rfl, rfl, rfl, keeps_of_estimator_moved rfl⟩⟩⟩

/-- Settles O21: TEDGE leaves FREQ at 0 exactly after an overflow, TOVF and RESET zero it, and nothing else moves it. -/
theorem frequencyAndOverflowAgree : Obligations.FrequencyAndOverflowAgree :=
  ⟨fun c => by simp [freqOvfRelation], fun _ _ _ _ => exec_freqOvfRelation⟩

/-- Settles O22: each capture pushes its duration, and pushes in a row keep the last `L` entries. -/
theorem historyHoldsTheLastDurations : Obligations.HistoryHoldsTheLastDurations := by
  intro s ds hc h0 hlen hd
  have hne := hist_ne_nil hc hlen
  obtain ⟨t, ht, hhist, hcnt⟩ := runOps_captures h0 hd
  exact ⟨t, ht, hhist.trans (foldl_pushHist ds hne), by rw [hhist, length_foldl_pushHist ds hne, hlen], hcnt⟩

/-- Settles O23: the two agents' operations and RESET read nothing else, and the others keep both agents' state. -/
theorem estimatorIsIsolated : Obligations.EstimatorIsIsolated := by
  intro i s s' hcfg hcap hest
  have hs : tachometerAgrees s s' := ⟨hcfg, hcap, hest⟩
  exact ⟨fun t t' => exec_keeps_agreement hs, exec_completes_iff_of_agreement hs⟩

/-- Settles O53: a run pushes the durations that it services, from RESET's `L` zeros or from any history. -/
theorem historyHoldsTheServicedDurationsOfAnyRun : Obligations.HistoryHoldsTheServicedDurationsOfAnyRun := by
  refine ⟨fun s t ops hc hr h => ?_, fun s t ops hc hlen hr h => ?_⟩
  · obtain ⟨u, hu, hrest⟩ := runOps_cons_next h
    have hzero : u.hist = List.replicate s.cfg.histLen 0 := by rw [execReset_next hu, State.resetWith_hist]
    have hne := hist_ne_nil hc (hzero ▸ List.length_replicate)
    have hn := servicedDurations_length hrest
    have hhist := runOps_hist hrest hr
    rw [servicedDurations_cons hu, if_neg nofun]
    refine ⟨hn, by rw [hhist, length_foldl_pushHist _ hne, hzero, List.length_replicate], fun k hk => ?_⟩
    rw [hhist, foldl_pushHist _ hne, hzero, getElem?_drop_replicate_append _ hk, hn]
    exact ⟨fun hlt => if_pos hlt, fun hle => if_neg (Nat.not_lt.mpr hle)⟩
  · rw [runOps_hist h hr, foldl_pushHist _ (hist_ne_nil hc hlen)]

end Sys2Proof.Machine
end

section
/-! PROOFS. The estimator's functions over natural numbers (41_estimator R140, R146, R147, R152): the arc of a sample,
what RANK finds among the scores, and the quotients, each with its positive divisor. -/

namespace Sys2Proof.Machine

theorem two_le_magnets {c : Config} (h : c.WellFormed) : 2 ≤ c.magnets :=
  Nat.le_of_succ_le (Config.historyOk_of_wellFormed h).1

theorem magnets_pos {c : Config} (h : c.WellFormed) : 0 < c.magnets := Nat.zero_lt_of_lt (two_le_magnets h)

/-! ### The arc of a sample -/

/-- The arc index is the remainder of R140, which `mod` makes non-negative (R10). -/
theorem arcIndex_cast {c : Config} (h : 0 < c.magnets) (cand j : Nat) :
    (arcIndex c cand j : Int) = ((cand : Int) - ((c.histLen : Int) - 1 - j)) % (c.magnets : Int) :=
  Int.toNat_of_nonneg (Int.emod_nonneg _ (by omega))

/-- With a history as long as the table, sample `j` belongs to the arc `j + 1` after the candidate (R140). -/
theorem arcIndex_of_histLen_eq {c : Config} (h : 0 < c.magnets) (hL : c.histLen = c.magnets) (cand j : Nat) :
    arcIndex c cand j = (cand + j + 1) % c.magnets := by
  have hshift : (cand : Int) - ((c.histLen : Int) - 1 - j) = ((cand + j + 1 : Nat) : Int) - c.magnets := by
    rw [hL]
    push_cast
    ring
  have hcast := arcIndex_cast h cand j
  rw [hshift, Int.sub_emod_right] at hcast
  exact_mod_cast hcast

/-! ### The scores in rank order -/

theorem mem_scores {c : Config} {hist : List Nat} {v : Nat} :
    v ∈ scores c hist ↔ ∃ k < c.magnets, score c hist k = v := by
  simp [scores]

/-- The scores of the candidates other than one. -/
theorem mem_scores_eraseIdx {c : Config} {hist : List Nat} {b v : Nat} :
    v ∈ (scores c hist).eraseIdx b ↔ ∃ k < c.magnets, k ≠ b ∧ score c hist k = v := by
  rw [List.mem_eraseIdx_iff_getElem]
  simp only [scores_getElem, scores_length]
  exact ⟨fun ⟨k, hk, hb, hv⟩ => ⟨k, hk, hb, hv⟩, fun ⟨k, hk, hb, hv⟩ => ⟨k, hk, hb, hv⟩⟩

theorem scores_getD {c : Config} {hist : List Nat} {k : Nat} (h : k < c.magnets) :
    (scores c hist).getD k 0 = score c hist k := by
  rw [List.getD_eq_getElem _ _ (by rwa [scores_length]), scores_getElem]

theorem rank_best_eq (c : Config) (hist : List Nat) :
    (rank c hist).best = firstIndexOf (rank c hist).s1 (scores c hist) := rfl

/-- `s1` is below every score (R146). -/
theorem rank_s1_le (c : Config) (hist : List Nat) {k : Nat} (h : k < c.magnets) : (rank c hist).s1 ≤ score c hist k :=
  leastOf_le (mem_scores.mpr ⟨k, h, rfl⟩)

theorem rank_s1_mem {c : Config} (hist : List Nat) (h : 0 < c.magnets) : (rank c hist).s1 ∈ scores c hist :=
  leastOf_mem (List.ne_nil_of_length_pos (by rwa [scores_length]))

/-- The best candidate's score is `s1` (R146). -/
theorem score_rank_best {c : Config} (hist : List Nat) (h : 0 < c.magnets) :
    score c hist (rank c hist).best = (rank c hist).s1 := by
  rw [← scores_getD (rank_best_lt c hist h), rank_best_eq]
  exact getD_firstIndexOf (rank_s1_mem hist h)

/-- The best candidate is the first that scores `s1` (R146). -/
theorem rank_s1_lt_of_lt_best {c : Config} {hist : List Nat} {k : Nat} (h : 0 < c.magnets)
    (hk : k < (rank c hist).best) : (rank c hist).s1 < score c hist k := by
  have hM := hk.trans (rank_best_lt c hist h)
  refine Nat.lt_of_le_of_ne (rank_s1_le c hist hM) fun heq => ?_
  exact getD_ne_of_lt_firstIndexOf (rank_best_eq c hist ▸ hk) ((scores_getD hM).trans heq.symm)

/-- `s2` is below the score of every other candidate (R146). -/
theorem rank_s2_le {c : Config} {hist : List Nat} {k : Nat} (h : k < c.magnets) (hk : k ≠ (rank c hist).best) :
    (rank c hist).s2 ≤ score c hist k :=
  leastOf_le (mem_scores_eraseIdx.mpr ⟨k, h, hk, rfl⟩)

/-- `s2` is the score of another candidate, there being at least two (R146). -/
theorem exists_score_eq_rank_s2 {c : Config} (hist : List Nat) (h : 2 ≤ c.magnets) :
    ∃ k < c.magnets, k ≠ (rank c hist).best ∧ score c hist k = (rank c hist).s2 := by
  have hbest : (rank c hist).best < (scores c hist).length := by
    rw [scores_length]
    exact rank_best_lt c hist (by omega)
  have hne : (scores c hist).eraseIdx (rank c hist).best ≠ [] := by
    refine List.ne_nil_of_length_pos ?_
    rw [List.length_eraseIdx_of_lt hbest, scores_length]
    omega
  exact mem_scores_eraseIdx.mp (leastOf_mem hne)

theorem rank_s1_le_s2 {c : Config} (hist : List Nat) (h : 2 ≤ c.magnets) : (rank c hist).s1 ≤ (rank c hist).s2 := by
  obtain ⟨k, hk, -, hscore⟩ := exists_score_eq_rank_s2 hist h
  exact hscore ▸ rank_s1_le c hist hk

/-- A candidate that scores less than every other is the best (R146). -/
theorem rank_best_eq_of_score_lt {c : Config} {hist : List Nat} {cand : Nat} (hcand : cand < c.magnets)
    (h : ∀ k < c.magnets, k ≠ cand → score c hist cand < score c hist k) : (rank c hist).best = cand := by
  have hpos : 0 < c.magnets := Nat.zero_lt_of_lt hcand
  by_contra hne
  have hlt := h _ (rank_best_lt c hist hpos) hne
  rw [score_rank_best hist hpos] at hlt
  exact absurd (rank_s1_le c hist hcand) (Nat.not_le.mpr hlt)

/-! ### The confidence and the frequency as floors of rationals -/

/-- The confidence is the floor of R146's quotient. -/
theorem confidence_cast {r : Ranking} (h : r.s1 ≤ r.s2) :
    (confidence r : Int) = ⌊(100 : ℚ) * ((r.s2 : ℚ) - r.s1) / ((r.s1 : ℚ) + 1)⌋ := by
  have hfloor := Rat.floor_natCast_div_natCast (confFactor * (r.s2 - r.s1)) (r.s1 + 1)
  push_cast [Nat.cast_sub h, confFactor] at hfloor
  rw [hfloor, confidence, confFactor]
  norm_cast

theorem confidence_of_tie {r : Ranking} (h : r.s2 ≤ r.s1) : confidence r = 0 := by
  rw [confidence, Nat.sub_eq_zero_of_le h, Nat.mul_zero, Nat.zero_div]

theorem freqCalc_zero (c : Config) (a : Nat) : freqCalc c a 0 = freqMax := if_pos rfl

/-- FREQCALC of a positive duration is the clamped floor of R147's quotient. -/
theorem freqCalc_of_pos {d : Nat} (c : Config) (a : Nat) (h : 0 < d) :
    freqCalc c a d = min freqMax (max 1 ⌊((a : ℚ) * c.freqNum) / ((d : ℚ) * c.magnets * c.freqDen)⌋₊) := by
  rw [freqCalc, if_neg h.ne', ← Nat.floor_div_eq_div (K := ℚ)]
  push_cast
  rfl

/-! ### The obligations -/

/-- Settles O14: the remainder of R140, and its value one table length on. -/
theorem samplesMapToConsecutiveArcs : Obligations.SamplesMapToConsecutiveArcs := by
  intro c cand j hc _ _
  have hM := magnets_pos hc
  exact ⟨arcIndex_cast hM cand j, arcIndex_lt c cand j hM, fun hL => arcIndex_of_histLen_eq hM hL cand j⟩

/-- Settles O17: `s1` and `s2` are least elements of the list of scores and of the list without the best; a tie makes
them equal. -/
theorem rankFindsBestAndSecondBest : Obligations.RankFindsBestAndSecondBest := by
  intro c hist hc
  have hM := magnets_pos hc
  have hM2 := two_le_magnets hc
  refine ⟨rank_best_lt c hist hM, score_rank_best hist hM, fun k => rank_s1_le c hist,
    fun k => rank_s1_lt_of_lt_best hM, exists_score_eq_rank_s2 hist hM2, fun k => rank_s2_le,
    confidence_cast (rank_s1_le_s2 hist hM2), ?_⟩
  rintro ⟨k, hk, hne, htie⟩
  exact confidence_of_tie (htie ▸ rank_s2_le hk hne)

/-- Settles O18, in the sentinel's case and in the quotient's. -/
theorem frequencyIsExact : Obligations.FrequencyIsExact := by
  intro c a d _
  exact ⟨fun h => h ▸ freqCalc_zero c a, freqCalc_of_pos c a⟩

/-- Settles O19: a denominator is at least 1 or a product of such, and so is `FREQCALC`'s divisor of a duration that is
not 0. -/
theorem estimatorNeverDividesByZero : Obligations.EstimatorNeverDividesByZero := by
  intro c hist cand j d hc
  have hden := impliedFreq_den_pos c hist cand j
  exact ⟨hden, trend_den_pos c hist cand j, fun h => Nat.mul_pos (Nat.pos_of_ne_zero h) hden, Nat.succ_pos _,
    fun h => Nat.mul_pos (Nat.mul_pos (Nat.pos_of_ne_zero h) (magnets_pos hc)) (Config.scaleOk_of_wellFormed hc).2.1⟩

end Sys2Proof.Machine
end

section
/-! PROOFS. The disambiguation over the rationals (41_estimator R141 to R145, R149): a numerator and denominator of the
model stand for the rational of the rule, so the natural-number functions are the exact ones; the trend lies between its
anchors; and durations proportional to the arcs score 0. -/

namespace Sys2Proof.Machine

/-! ### The rational that a ratio stands for -/

/-- The rational that a numerator and denominator stand for. -/
def Ratio.toRat (r : Ratio) : ℚ := r.num / r.den

theorem Ratio.toRat_eq_iff {f g : Ratio} (hf : 0 < f.den) (hg : 0 < g.den) :
    f.toRat = g.toRat ↔ f.num * g.den = g.num * f.den := by
  rw [toRat, toRat, div_eq_div_iff (by positivity) (by positivity)]
  norm_cast

theorem Ratio.toRat_eq_zero_iff {f : Ratio} (hf : 0 < f.den) : f.toRat = 0 ↔ f.num = 0 := by
  rw [toRat, div_eq_zero_iff, Nat.cast_eq_zero, Nat.cast_eq_zero]
  exact or_iff_left hf.ne'

theorem absDiff_cast (a b : Nat) : (absDiff a b : ℚ) = |(a : ℚ) - b| := by
  rcases Nat.le_total a b with h | h
  · rw [absDiff, Nat.sub_eq_zero_of_le h, Nat.zero_add, Nat.cast_sub h, abs_sub_comm, abs_of_nonneg]
    exact sub_nonneg.mpr (Nat.cast_le.mpr h)
  · rw [absDiff, Nat.sub_eq_zero_of_le h, Nat.add_zero, Nat.cast_sub h, abs_of_nonneg]
    exact sub_nonneg.mpr (Nat.cast_le.mpr h)

/-- The floor of a scaled relative deviation is one division of natural numbers (R144, R153). -/
theorem Ratio.floor_relative_deviation {f g : Ratio} (k : Nat) (hf : 0 < f.den) (hg : 0 < g.den) :
    ⌊(k : ℚ) * |f.toRat - g.toRat| / g.toRat⌋₊ =
      k * absDiff (f.num * g.den) (g.num * f.den) / (g.num * f.den) := by
  have hdf : (0 : ℚ) < f.den := Nat.cast_pos.mpr hf
  have hdg : (0 : ℚ) < g.den := Nat.cast_pos.mpr hg
  have hsub : f.toRat - g.toRat = ((f.num * g.den : Nat) - (g.num * f.den : Nat) : ℚ) / (f.den * g.den) := by
    rw [toRat, toRat, div_sub_div _ _ hdf.ne' hdg.ne']
    push_cast
    ring
  rw [← Nat.floor_div_eq_div (K := ℚ), hsub, abs_div, ← absDiff_cast, abs_of_pos (mul_pos hdf hdg), toRat]
  congr 1
  push_cast
  field_simp

/-! ### The model's functions as the rationals of the rules -/

theorem impliedFreq_toRat (c : Config) (hist : List Nat) (cand j : Nat) :
    (impliedFreq c hist cand j).toRat = Exact.f c hist cand j := by
  simp [Ratio.toRat, impliedFreq, Exact.f]

theorem sum_take_eq (hist : List Nat) (n : Nat) : (hist.take n).sum = ∑ i ∈ Finset.range n, hist.getD i 0 := by
  induction n with
  | zero => rfl
  | succ n ih =>
    rw [List.take_add_one, List.sum_append, ih, Finset.sum_range_succ, List.getD_eq_getElem?_getD]
    cases hist[n]? <;> simp

theorem elapsed_cast (hist : List Nat) (j : Nat) : (elapsed hist j : ℚ) = Exact.t hist j := by
  rw [elapsed, sum_take_eq, Exact.t, Nat.cast_sum]

/-- The time since the first sample, as R142 and R143 take it. -/
theorem elapsed_sub_cast (hist : List Nat) (j : Nat) :
    ((elapsed hist j - elapsed hist 0 : Nat) : ℚ) = Exact.t hist j - Exact.t hist 0 := by
  rw [Nat.cast_sub (elapsed_mono hist (Nat.zero_le j)), elapsed_cast, elapsed_cast]

theorem anchorSpan_cast (c : Config) (hist : List Nat) : (anchorSpan c hist : ℚ) = Exact.span c hist :=
  elapsed_sub_cast hist _

/-- The place of a sample between the anchors, as a quotient of natural numbers (R143). -/
theorem exact_lam_eq (c : Config) (hist : List Nat) (j : Nat) :
    Exact.lam c hist j = ((elapsed hist j - elapsed hist 0 : Nat) : ℚ) / (anchorSpan c hist : Nat) := by
  rw [Exact.lam, elapsed_sub_cast, anchorSpan_cast]
  split
  · rfl
  · rename_i h
    rw [← anchorSpan_cast, Nat.cast_pos, Nat.pos_iff_ne_zero, not_not] at h
    rw [← anchorSpan_cast, h, Nat.cast_zero, div_zero]

/-- No sample lies beyond the last anchor (R142). -/
theorem elapsed_sub_le_anchorSpan {c : Config} {j : Nat} (hist : List Nat) (h : j < c.histLen) :
    elapsed hist j - elapsed hist 0 ≤ anchorSpan c hist :=
  Nat.sub_le_sub_right (elapsed_mono hist (by omega)) _

theorem trend_toRat {c : Config} {j : Nat} (hist : List Nat) (cand : Nat) (h : j < c.histLen) :
    (trend c hist cand j).toRat = Exact.trend c hist cand j := by
  rw [Exact.trend, ← impliedFreq_toRat, ← impliedFreq_toRat, exact_lam_eq, trend]
  by_cases hs : anchorSpan c hist = 0
  · simp [hs]
  · have h0 : ((impliedFreq c hist cand 0).den : ℚ) ≠ 0 := Nat.cast_ne_zero.mpr (impliedFreq_den_pos ..).ne'
    have h1 : ((impliedFreq c hist cand (c.histLen - 1)).den : ℚ) ≠ 0 :=
      Nat.cast_ne_zero.mpr (impliedFreq_den_pos ..).ne'
    have hT : (anchorSpan c hist : ℚ) ≠ 0 := Nat.cast_ne_zero.mpr hs
    simp only [if_neg hs, Ratio.toRat, Nat.cast_add, Nat.cast_mul, Nat.cast_sub (elapsed_sub_le_anchorSpan hist h)]
    field_simp
    ring

/-- The deviation over natural numbers is the exact one (R144). -/
theorem deviation_eq {c : Config} {j : Nat} (hist : List Nat) (cand : Nat) (h : j < c.histLen) :
    deviation c hist cand j = Exact.deviation c hist cand j := by
  have hf := impliedFreq_den_pos c hist cand j
  have ht := trend_den_pos c hist cand j
  simp only [Exact.deviation, ← impliedFreq_toRat, ← trend_toRat hist cand h, Ratio.toRat_eq_iff hf ht,
    Ratio.toRat_eq_zero_iff ht, Ratio.floor_relative_deviation c.scoreScale hf ht]
  rfl

theorem foldl_max_map_range (g : Nat → Nat) (n : Nat) :
    ((List.range n).map g).foldl max 0 = (Finset.range n).sup g := by
  induction n with
  | zero => rfl
  | succ n ih =>
    rw [List.range_succ, List.map_append, List.foldl_append, ih, Finset.range_add_one, Finset.sup_insert, max_comm]
    rfl

/-- The score is the largest deviation of the samples (R145). -/
theorem score_eq_sup (c : Config) (hist : List Nat) (cand : Nat) :
    score c hist cand = (Finset.range c.histLen).sup (deviation c hist cand) :=
  foldl_max_map_range _ _

/-! ### The trend between its anchors -/

theorem exact_lam_nonneg (c : Config) (hist : List Nat) (j : Nat) : 0 ≤ Exact.lam c hist j := by
  rw [exact_lam_eq]
  positivity

theorem exact_lam_le_one {c : Config} {j : Nat} (hist : List Nat) (h : j < c.histLen) : Exact.lam c hist j ≤ 1 := by
  rw [exact_lam_eq]
  exact div_le_one_of_le₀ (Nat.cast_le.mpr (elapsed_sub_le_anchorSpan hist h)) (Nat.cast_nonneg _)

theorem exact_lam_zero (c : Config) (hist : List Nat) : Exact.lam c hist 0 = 0 := by
  rw [exact_lam_eq, Nat.sub_self, Nat.cast_zero, zero_div]

theorem exact_lam_last {c : Config} {hist : List Nat} (h : 0 < Exact.span c hist) :
    Exact.lam c hist (c.histLen - 1) = 1 := by
  rw [Exact.lam, if_pos h]
  exact div_self h.ne'

/-- The trend is a weighted mean of the two anchor frequencies (R143). -/
theorem exact_trend_eq_combo (c : Config) (hist : List Nat) (cand j : Nat) :
    Exact.trend c hist cand j =
      (1 - Exact.lam c hist j) • Exact.f c hist cand 0 + Exact.lam c hist j • Exact.f c hist cand (c.histLen - 1) := by
  rw [Exact.trend, smul_eq_mul, smul_eq_mul]
  ring

theorem exact_f_nonneg (c : Config) (hist : List Nat) (cand j : Nat) : 0 ≤ Exact.f c hist cand j := by
  rw [← impliedFreq_toRat, Ratio.toRat]
  positivity

theorem exact_span_eq_sum {c : Config} (hist : List Nat) (h : 0 < c.histLen) :
    Exact.span c hist = ∑ i ∈ Finset.Ico 1 c.histLen, (hist.getD i 0 : ℚ) := by
  rw [Exact.span, Exact.t, Exact.t, Nat.sub_add_cancel h, Finset.sum_Ico_eq_sub _ h]

/-- A sample on the trend has no deviation (R144). -/
theorem deviation_eq_zero_of_on_trend {c : Config} {hist : List Nat} {cand j : Nat} (h : j < c.histLen)
    (he : Exact.f c hist cand j = Exact.trend c hist cand j) : deviation c hist cand j = 0 := by
  rw [deviation_eq hist cand h, Exact.deviation, if_pos he]

/-! ### Proportional durations -/

/-- A duration proportional to its arc has the factor as its implied frequency (R141). -/
theorem exact_f_of_proportional {c : Config} {hist : List Nat} {cand j : Nat} {r : ℚ} (h1 : 1 ≤ hist.getD j 0)
    (hr : (arcAt c (arcIndex c cand j) : ℚ) = r * (hist.getD j 0 : ℚ)) : Exact.f c hist cand j = r := by
  have hpos : (1 : ℚ) ≤ (hist.getD j 0 : ℚ) := by exact_mod_cast h1
  rw [Exact.f, hr, max_eq_left hpos, mul_div_cancel_right₀ _ (by linarith)]

/-- When every sample has one frequency, it is the trend, and the score is 0 (R143 to R145, R149). -/
theorem score_eq_zero_of_constant_f {c : Config} {hist : List Nat} {cand : Nat} {r : ℚ}
    (h : ∀ j < c.histLen, Exact.f c hist cand j = r) : score c hist cand = 0 := by
  rw [score_eq_sup, ← Nat.bot_eq_zero, Finset.sup_eq_bot_iff]
  intro j hj
  have hj := Finset.mem_range.mp hj
  refine deviation_eq_zero_of_on_trend hj ?_
  rw [Exact.trend, h j hj, h 0 (by omega), h (c.histLen - 1) (by omega), sub_self, zero_mul, add_zero]

/-- Durations proportional to the arcs of a candidate give it score 0 (R149). -/
theorem score_eq_zero_of_proportional {c : Config} {hist : List Nat} {cand : Nat} {r : ℚ}
    (h : ∀ j < c.histLen, 1 ≤ hist.getD j 0 ∧ (arcAt c (arcIndex c cand j) : ℚ) = r * (hist.getD j 0 : ℚ)) :
    score c hist cand = 0 :=
  score_eq_zero_of_constant_f fun j hj => exact_f_of_proportional (h j hj).1 (h j hj).2

/-- A candidate of score 0, every other scoring at least 2, is the best with a confidence of 100 times the second best
(R146, R149). -/
theorem rank_of_score_zero {c : Config} {hist : List Nat} {cand : Nat} (hM : 2 ≤ c.magnets) (hcand : cand < c.magnets)
    (h0 : score c hist cand = 0) (h2 : ∀ k < c.magnets, k ≠ cand → 2 ≤ score c hist k) :
    (rank c hist).best = cand ∧ confidence (rank c hist) = 100 * (rank c hist).s2 ∧
      200 ≤ confidence (rank c hist) := by
  have hbest : (rank c hist).best = cand :=
    rank_best_eq_of_score_lt hcand fun k hk hne => by
      have := h2 k hk hne
      omega
  have hs1 : (rank c hist).s1 = 0 := by rw [← score_rank_best hist (by omega), hbest, h0]
  obtain ⟨k, hk, hne, hs2⟩ := exists_score_eq_rank_s2 hist hM
  have hge := h2 k hk (hbest ▸ hne)
  have hconf : confidence (rank c hist) = 100 * (rank c hist).s2 := by simp [confidence, hs1, confFactor]
  exact ⟨hbest, hconf, by omega⟩

/-- A best candidate with a confidence above the threshold is the phase, from any previous phase (R148). -/
theorem resolvePhase_of_confident {c : Config} {hist : List Nat} (h : c.confThreshold < confidence (rank c hist))
    (phase : Nat) : resolvePhase c hist phase = (rank c hist).best := by
  rw [resolvePhase_eq]
  split
  · rfl
  · rename_i hno
    by_contra hne
    exact hno ⟨h, Ne.symm hne⟩

/-! ### The obligations -/

/-- Settles O15: each deviation is the exact one, the score is the largest of them, and each is at most SCORE_MAX. -/
theorem scoresAreExact : Obligations.ScoresAreExact := by
  intro c hist cand _
  have hdev : ∀ j < c.histLen, deviation c hist cand j = Exact.deviation c hist cand j := fun j =>
    deviation_eq hist cand
  refine ⟨hdev, ?_, ?_⟩
  · rw [score_eq_sup, Exact.score]
    exact Finset.sup_congr rfl fun j hj => hdev j (Finset.mem_range.mp hj)
  · rw [score_eq_sup]
    exact Finset.sup_le fun j _ => deviation_le c hist cand j

/-- Settles O16: the trend is a mean of the anchors with the sample's place as weight, which is 0 at the first anchor
and 1 at the last. -/
theorem trendStaysBetweenItsAnchors : Obligations.TrendStaysBetweenItsAnchors := by
  intro c hist cand j _ hj
  have h0 := exact_lam_nonneg c hist j
  have h1 := exact_lam_le_one hist hj
  have hmin : min (Exact.f c hist cand 0) (Exact.f c hist cand (c.histLen - 1)) ≤ Exact.trend c hist cand j := by
    rw [exact_trend_eq_combo]
    exact Convex.min_le_combo _ _ (sub_nonneg.mpr h1) h0 (sub_add_cancel _ _)
  have hmax : Exact.trend c hist cand j ≤ max (Exact.f c hist cand 0) (Exact.f c hist cand (c.histLen - 1)) := by
    rw [exact_trend_eq_combo]
    exact Convex.combo_le_max _ _ (sub_nonneg.mpr h1) h0 (sub_add_cancel _ _)
  refine ⟨exact_span_eq_sum hist (by omega), h0, h1, hmin, hmax,
    (le_min (exact_f_nonneg ..) (exact_f_nonneg ..)).trans hmin, deviation_eq_zero_of_on_trend (by omega) ?_, fun hs =>
    deviation_eq_zero_of_on_trend (by omega) ?_⟩
  · rw [Exact.trend, exact_lam_zero, mul_zero, add_zero]
  · rw [Exact.trend, exact_lam_last hs, mul_one, add_sub_cancel]

/-- Settles O20: one implied frequency for all samples scores 0, which ranks first, and TEDGE takes it whether or not
the phase already agrees. -/
theorem proportionalDurationsResynchronise : Obligations.ProportionalDurationsResynchronise := by
  refine ⟨fun c hist cand r hc hcand _ hprop => ?_, fun s cand r hc hthr hedge hcand _ hprop h2 => ?_⟩
  · have h0 := score_eq_zero_of_proportional hprop
    exact ⟨h0, rank_of_score_zero (two_le_magnets hc) hcand h0⟩
  · have h0 := score_eq_zero_of_proportional hprop
    obtain ⟨hbest, -, hconf⟩ := rank_of_score_zero (two_le_magnets hc) hcand h0 h2
    exact ⟨_, exec_tedge hedge, (resolvePhase_of_confident (by omega) _).trans hbest⟩

end Sys2Proof.Machine
end

section
/-! PROOFS. The encoder's operations EHT, ETC and ESYM and the symbol of a bit (42_encoder R170 to R173): their effects
and frames. -/

namespace Sys2Proof.Machine

/-! ### The rules of the three operations -/

/-- What moves only the encoder's elements, the two notifications and the list of the transfer buffer keeps every other
element (R170 to R172). -/
theorem keeps_of_encoder_moved {s t : State} {ht tc busy : Bool} {bank : Bank} {k cursor : Nat} {word : ColorBits}
    {tbuf : Memory 16}
    (h : t = { s with
      htPend := ht, tcPend := tc, encBusy := busy, encBank := bank, encK := k, encCursor := cursor, encWord := word
      tbuf := tbuf }) :
    keepsInputs s t ∧ keepsCapture s t ∧ keepsEstimator s t ∧ keepsColor s t ∧ keepsWire s t ∧ keepsResponses s t := by
  subst h
  exact ⟨⟨rfl, rfl, rfl⟩, ⟨rfl, rfl, rfl, rfl⟩, ⟨rfl, rfl, rfl, rfl⟩, fun _ => State.colorRead_congr rfl rfl _,
    ⟨rfl, rfl⟩, rfl⟩

/-- ESYM is the body of R172 with ENC_K and ENC_BUSY after it, whether or not the symbol is the bank's last. -/
theorem execEsym_next_encodeAt {s t : State} (h : execEsym s = .next t) :
    ∃ k busy, t = { encodeAt s s.encK with encK := k, encBusy := busy } ∧
      (s.encK = bankSyms s.cfg - 1 → k = 0 ∧ busy = false) ∧
      (s.encK ≠ bankSyms s.cfg - 1 → k = s.encK + 1 ∧ busy = true) := by
  obtain ⟨hb, ⟨hk, rfl⟩ | ⟨hk, rfl⟩⟩ := execEsym_next h
  · exact ⟨_, _, rfl, fun _ => ⟨rfl, rfl⟩, fun hne => absurd hk hne⟩
  · exact ⟨_, _, rfl, fun he => absurd he hk, fun _ => ⟨rfl, hb⟩⟩

/-! ### The obligations -/

/-- Settles O27, by the body of ESYM, clause by clause. -/
theorem esymWritesOneSymbol : Obligations.EsymWritesOneSymbol := by
  refine ⟨rfl, fun s => ⟨fun h => exec_instrOf_of_not_enabled (g := .esym) h, fun hb => ?_⟩⟩
  obtain ⟨t, ht, -⟩ := exec_guarded (g := .esym) hb
  obtain ⟨k, busy, heq, hlast, hmore⟩ := execEsym_next_encodeAt ht
  obtain ⟨hin, hcap, hest, hcol, hwire, hresp⟩ := keeps_of_encoder_moved heq
  subst heq
  have hread := State.tbufRead_of_write (s := s) (t := { encodeAt s s.encK with encK := k, encBusy := busy }) rfl rfl
  exact ⟨_, ht, fun h => if_pos h, fun h => if_neg h, (hread _).trans (if_pos rfl),
    fun q hq => (hread q).trans (if_neg hq), fun h => if_pos h, fun h => if_neg h, hlast, hmore, rfl, hin, hcap, hest,
    hcol, ⟨rfl, rfl, rfl, rfl, rfl, rfl⟩, hwire, hresp⟩

/-- Settles O25, by EHT's one effect and its guard. -/
theorem ehtBeginsBankZero : Obligations.EhtBeginsBankZero := by
  refine ⟨rfl, fun s => ⟨fun h => exec_instrOf_of_not_enabled (g := .eht) ?_, fun hp hb => ?_⟩⟩
  · rcases h with h | h <;> simp [State.enabled, h]
  · obtain ⟨t, ht, -⟩ := exec_guarded (g := .eht) (s := s) (by simp [State.enabled, hp, hb])
    obtain ⟨-, -, heq⟩ := execEht_next ht
    obtain ⟨hin, hcap, hest, hcol, hwire, hresp⟩ := keeps_of_encoder_moved heq
    subst heq
    exact ⟨_, ht, rfl, rfl, rfl, rfl, rfl, rfl, rfl, rfl, rfl, rfl, rfl, hin, hcap, hest, hcol,
      State.tbufRead_congr rfl rfl, hwire, hresp⟩

/-- Settles O26, by ETC's one effect and its guard. -/
theorem etcBeginsBankOne : Obligations.EtcBeginsBankOne := by
  refine ⟨rfl, fun s => ⟨fun h => exec_instrOf_of_not_enabled (g := .etc) ?_, fun hp hb => ?_⟩⟩
  · rcases h with h | h <;> simp [State.enabled, h]
  · obtain ⟨t, ht, -⟩ := exec_guarded (g := .etc) (s := s) (by simp [State.enabled, hp, hb])
    obtain ⟨-, -, heq⟩ := execEtc_next ht
    obtain ⟨hin, hcap, hest, hcol, hwire, hresp⟩ := keeps_of_encoder_moved heq
    subst heq
    exact ⟨_, ht, rfl, rfl, rfl, rfl, rfl, rfl, rfl, rfl, rfl, rfl, rfl, hin, hcap, hest, hcol,
      State.tbufRead_congr rfl rfl, hwire, hresp⟩

/-- Settles O28, by the two branches of `SYMBOL` and the configuration's duty values. -/
theorem symbolOfEachBit : Obligations.SymbolOfEachBit := by
  intro c s b w hc
  have hcolor (hs : s < c.ledCount) : (symbolOf c s b w).toNat = if w.getLsbD b then c.duty1 else c.duty0 := by
    rw [symbolOf, if_neg (Nat.not_le.mpr hs), bitSym_toNat hc]
  exact ⟨fun hs => if_pos hs, fun hs hb => by simp [hcolor hs, hb], fun hs hb => by simp [hcolor hs, hb]⟩

end Sys2Proof.Machine
end

section
/-! PROOFS. The frame on the wire (42_encoder R176). Each symbol that the encoder writes is the next of the endlessly
repeated frame of 30_encoding R82, and the transfer buffer is a ring that holds the last two banks of them. Under
DEADLINE (R311) and with notifications serviced oldest first, the engine reads inside that window at every PERIOD. -/

namespace Sys2Proof.Machine

/-! ### The ring -/

/-- The bank that the frame's symbols of the `h`-th half cycle belong to, both banks in turn (R201). -/
def bankOf (h : Nat) : Bank := if h % 2 = 0 then .bank0 else .bank1

theorem bankOf_index (h : Nat) : (bankOf h).index = h % 2 := by
  rcases Nat.mod_two_eq_zero_or_one h with he | he <;> simp [bankOf, he, Bank.index]

@[simp] theorem bankOf_add_two (h : Nat) : bankOf (h + 2) = bankOf h := by simp [bankOf]

theorem bankOf_succ_ne (h : Nat) : bankOf (h + 1) ≠ bankOf h := by
  intro he
  have := congrArg Bank.index he
  simp only [bankOf_index] at this
  omega

/-- Symbol `n` of the stream has its place in its half cycle's bank (R32). -/
theorem mod_tbufSyms (c : Config) (n : Nat) :
    n % tbufSyms c = bankBase c (bankOf (n / bankSyms c)) + n % bankSyms c := by
  rw [tbufSyms, Nat.mul_comm, Nat.mod_mul, bankBase, bankOf_index]
  ring

/-- Place `k` of the `j`-th half cycle. -/
theorem mul_bankSyms_add_mod {c : Config} {k : Nat} (hk : k < bankSyms c) (j : Nat) :
    (j * bankSyms c + k) % tbufSyms c = bankBase c (bankOf j) + k := by
  have hdiv : (j * bankSyms c + k) / bankSyms c = j := by
    rw [Nat.mul_comm, Nat.mul_add_div (Nat.zero_lt_of_lt hk), Nat.div_eq_of_lt hk, Nat.add_zero]
  rw [mod_tbufSyms, hdiv, Nat.mul_add_mod_of_lt hk]

/-- The places of the two banks are distinct positions (R32). -/
theorem bankBase_add_inj {c : Config} {b b' : Bank} {k k' : Nat} (hk : k < bankSyms c) (hk' : k' < bankSyms c) :
    bankBase c b + k = bankBase c b' + k' ↔ k = k' ∧ b = b' := by
  cases b <;> cases b' <;> simp [bankBase, Bank.index] <;> omega

/-- The last place of a half cycle is that before the next one's first. -/
theorem mod_bankSyms_eq_last_iff {c : Config} (hc : c.WellFormed) (n : Nat) :
    n % bankSyms c = bankSyms c - 1 ↔ bankSyms c ∣ n + 1 := by
  obtain ⟨m, hm⟩ := Nat.exists_eq_add_one.mpr (bankSyms_pos hc)
  rw [hm, Nat.dvd_iff_mod_eq_zero, Nat.succ_mod_succ_eq_zero_iff, Nat.add_sub_cancel]

/-- The first `w` symbols of the frame of `s`, repeated, have been encoded in order: `u` stands at the `w`-th, and the
transfer buffer holds as many of the last ones as it has positions. -/
structure StreamWritten (s u : State) (w : Nat) : Prop where
  cfg : u.cfg = s.cfg
  draws : u.draws = s.draws
  color : u.color = s.color
  cursor : u.encCursor = w / 24 % slots s.cfg
  word : w % 24 ≠ 0 → w / 24 % slots s.cfg < s.cfg.ledCount →
    u.encWord = (s.colorRead (w / 24 % slots s.cfg)).setWidth 24
  ring : ∀ p, p < w → w ≤ p + tbufSyms s.cfg → u.tbufRead (p % tbufSyms s.cfg) = frameSymbol s p

/-- In a colour slot the word in use is the slot's own colour. -/
theorem StreamWritten.latchedWord_eq {s u : State} {w k : Nat} (h : StreamWritten s u w) (hk : k % 24 = w % 24)
    (hs : w / 24 % slots s.cfg < s.cfg.ledCount) :
    latchedWord u k = (s.colorRead (w / 24 % slots s.cfg)).setWidth 24 := by
  rw [latchedWord, h.cursor, h.cfg, State.colorRead_congr h.color h.draws]
  split
  · rfl
  · exact h.word (by omega) hs

/-- The symbol due is the next of the frame. -/
theorem StreamWritten.dueSymbol_eq {s u : State} {w k : Nat} (h : StreamWritten s u w) (hk : k % 24 = w % 24) :
    dueSymbol u k = frameSymbol s w := by
  rw [dueSymbol, frameSymbol, slotSymbol, h.cfg, h.cursor, hk]
  by_cases hs : w / 24 % slots s.cfg < s.cfg.ledCount
  · rw [h.latchedWord_eq hk hs]
  · simp [symbolOf, Nat.le_of_not_lt hs]

/-- The body of ESYM at the stream's place writes one symbol more, over the oldest (R172). -/
theorem StreamWritten.succ {s u : State} {w k : Nat} (h : StreamWritten s u w) (hk : k % 24 = w % 24)
    (hq : bankBase s.cfg u.encBank + k = w % tbufSyms s.cfg) : StreamWritten s (encodeAt u k) (w + 1) where
  cfg := h.cfg
  draws := h.draws
  color := h.color
  cursor := by
    rw [encodeAt_encCursor, cursorAfter, h.cursor, h.cfg]
    split
    · rw [Nat.mod_add_mod, show (w + 1) / 24 = w / 24 + 1 by omega]
    · rw [show (w + 1) / 24 = w / 24 by omega]
  word h0 hs := by
    have hsame : (w + 1) / 24 = w / 24 := by omega
    rw [hsame] at hs ⊢
    exact h.latchedWord_eq hk hs
  ring p hp hw := by
    have hwrite : (encodeAt u k).tbuf = u.tbuf.write (w % tbufSyms s.cfg) (frameSymbol s w) := by
      rw [encodeAt_tbuf, h.cfg, hq, h.dueSymbol_eq hk]
    rw [State.tbufRead_of_write hwrite rfl]
    by_cases hpw : p = w
    · rw [hpw, if_pos rfl]
    · rw [if_neg, h.ring p (by omega) (by omega)]
      intro hmod
      have hdvd := (Nat.modEq_iff_dvd' (by omega)).mp hmod
      exact hpw (by have := Nat.le_of_dvd (by omega) hdvd; omega)

/-- One bank of START's prefill, from a slot's first symbol on (R231). -/
theorem StreamWritten.addBank {s u : State} {w : Nat} {b : Bank} (h : StreamWritten s u w) (h0 : w % 24 = 0)
    (hq : ∀ k < bankSyms s.cfg, bankBase s.cfg b + k = (w + k) % tbufSyms s.cfg) :
    StreamWritten s (prefillBank u b) (w + bankSyms s.cfg) := by
  have hloop : ∀ n ≤ bankSyms s.cfg, StreamWritten s (prefillLoop { u with encBank := b } n) (w + n) := by
    intro n hn
    induction n with
    | zero => exact { h with }
    | succ n ih =>
      have hstep : StreamWritten s { prefillLoop { u with encBank := b } n with encK := n } (w + n) :=
        { ih (by omega) with }
      rw [prefillLoop_succ]
      refine hstep.succ (by omega) ?_
      rw [← hq n hn, prefillLoop_keeps State.encBank (fun _ _ => rfl) (fun _ _ => rfl)]
  have hfull : prefillBank u b = prefillLoop { u with encBank := b } (bankSyms s.cfg) := by
    rw [prefillBank_eq, h.cfg]
  rw [hfull]
  exact hloop _ (Nat.le_refl _)

/-- START's prefill writes the frame's first two banks (R231). -/
theorem prefill_streamWritten (s : State) : StreamWritten s (prefill s) (2 * bankSyms s.cfg) := by
  have hz : StreamWritten s { s with encCursor := 0 } 0 :=
    ⟨rfl, rfl, rfl, (Nat.zero_mod _).symm, fun h => absurd rfl h, fun p hp => absurd hp (Nat.not_lt_zero p)⟩
  have h0 := hz.addBank (b := .bank0) rfl fun k hk => by
    rw [← Nat.mod_eq_of_lt (bankBase_add_lt s.cfg .bank0 hk)]
    simp [bankBase, Bank.index]
  have h1 := h0.addBank (b := .bank1) (by rw [Nat.zero_add]; exact Nat.mul_mod_right ..) fun k hk => by
    rw [← Nat.mod_eq_of_lt (bankBase_add_lt s.cfg .bank1 hk)]
    simp [bankBase, Bank.index]
  rwa [Nat.zero_add, ← Nat.two_mul] at h1

/-! ### The engine behind the encoder -/

/-- The notification that asks for a bank's refill (R40). -/
def State.pending (s : State) : Bank → Bool
  | .bank0 => s.htPend
  | .bank1 => s.tcPend

/-- DEADLINE for the bank whose first position is read (R311). -/
theorem ready_of_deadlineMet {u : State} {b : Bank} (hd : deadlineMet .period u) (hpos : u.dmaPos = bankBase u.cfg b) :
    u.pending b = false ∧ ¬(u.encBusy = true ∧ u.encBank = b) := by
  obtain ⟨h0, h1⟩ := hd rfl
  cases b with
  | bank0 => exact h0 hpos
  | bank1 => exact h1 hpos

/-- After `n` bit periods and `r` refills since START: the wire carries the frame, the encoder is `r` refills and
ENC_K symbols beyond the prefill, and the notifications that wait are those of the completed half cycles that no refill
has begun for. The engine is never past the last bank written. -/
structure Streaming (s u : State) (n r : Nat) : Prop where
  stream : StreamWritten s u ((r + 2) * bankSyms s.cfg + u.encK)
  wire : u.wire = s.wire ++ (List.range n).map (frameSymbol s)
  run : u.run = true
  htEn : u.htEn = true
  tcEn : u.tcEn = true
  dmaPos : u.dmaPos = n % tbufSyms s.cfg
  bank : u.encBusy = true → u.encBank = bankOf r
  encK : u.encK < bankSyms s.cfg
  idle : u.encBusy = false → u.encK = 0
  begun : r + u.encBusy.toNat ≤ n / bankSyms s.cfg
  ahead : n ≤ (r + 2) * bankSyms s.cfg
  pending : ∀ b, u.pending b = true ↔ ∃ h, r + u.encBusy.toNat ≤ h ∧ h < n / bankSyms s.cfg ∧ bankOf h = b

/-- START of a stopped engine (R231). -/
theorem Streaming.start {s t : State} (hc : s.cfg.WellFormed) (hr : s.run = false) (h : exec .start s = .next t) :
    Streaming s t 0 0 := by
  obtain ⟨hr', -⟩ | ⟨-, rfl⟩ := execStart_next h
  · simp [hr] at hr'
  exact {
    stream := { prefill_streamWritten s with }
    wire := by simp
    run := rfl
    htEn := rfl
    tcEn := rfl
    dmaPos := (Nat.zero_mod _).symm
    bank := fun h => nomatch h
    encK := bankSyms_pos hc
    idle := fun _ => rfl
    begun := Nat.zero_le _
    ahead := Nat.zero_le _
    pending := fun b => by cases b <;> simp [State.pending] }

section
variable {s u v : State} {n r : Nat} (h : Streaming s u n r)
include h

/-- The tachometer and the responses take no part. -/
theorem Streaming.aside (responses : List Response) (capCnt capLatch : Nat) (edgePend ovfPend : Bool) (hist : List Nat)
    (phase : Nat) (freq : BitVec 32) (ovf : Bool) :
    Streaming s { u with
      responses := responses, capCnt := capCnt, capLatch := capLatch, edgePend := edgePend, ovfPend := ovfPend
      hist := hist, phase := phase, freq := freq, ovf := ovf } n r :=
  { h with stream := { h.stream with } }

/-- Where DMA_POS stands in the half cycle (R201). -/
theorem Streaming.dmaPos_eq : u.dmaPos = bankBase s.cfg (bankOf (n / bankSyms s.cfg)) + n % bankSyms s.cfg :=
  h.dmaPos.trans (mod_tbufSyms _ _)

/-- With no refill in progress, the notifications that wait are those of the half cycles from the `r`-th on. -/
theorem Streaming.pending_iff (hb : u.encBusy = false) (b : Bank) :
    u.pending b = true ↔ ∃ j, r ≤ j ∧ j < n / bankSyms s.cfg ∧ bankOf j = b := by
  simpa [hb] using h.pending b

/-- At most two half cycles have passed since the one whose bank was refilled last. -/
theorem Streaming.halfCycles_le (hc : s.cfg.WellFormed) : n / bankSyms s.cfg ≤ r + 2 := by
  rw [← Nat.mul_div_cancel (r + 2) (bankSyms_pos hc)]
  exact Nat.div_le_div_right h.ahead

/-- The engine that has caught up with the encoder stands at the beginning of the bank to be refilled. -/
theorem Streaming.dmaPos_of_caughtUp (hm : n / bankSyms s.cfg = r + 2) :
    n = (r + 2) * bankSyms s.cfg ∧ u.dmaPos = bankBase u.cfg (bankOf r) := by
  have hle : (r + 2) * bankSyms s.cfg ≤ n := hm ▸ Nat.div_mul_le_self ..
  have hn : n = (r + 2) * bankSyms s.cfg := Nat.le_antisymm h.ahead hle
  refine ⟨hn, ?_⟩
  rw [h.dmaPos_eq, hm, hn, Nat.mul_mod_left, bankOf_add_two, h.stream.cfg, Nat.add_zero]

/-- The engine enters the half cycle after the last one written only against DEADLINE (R311). -/
theorem Streaming.lt_ahead (hc : s.cfg.WellFormed) (hd : deadlineMet .period u) : n < (r + 2) * bankSyms s.cfg := by
  refine Nat.lt_of_le_of_ne h.ahead fun hn => ?_
  have hm : n / bankSyms s.cfg = r + 2 := by rw [hn, Nat.mul_div_cancel _ (bankSyms_pos hc)]
  obtain ⟨-, hpos⟩ := h.dmaPos_of_caughtUp hm
  obtain ⟨hp, hidle⟩ := ready_of_deadlineMet hd hpos
  have hbusy : u.encBusy = false := by
    by_contra hb
    rw [Bool.not_eq_false] at hb
    exact hidle ⟨hb, h.bank hb⟩
  have hwaits := (h.pending_iff hbusy (bankOf r)).mpr ⟨r, Nat.le_refl r, by omega, rfl⟩
  simp [hp] at hwaits

/-- The symbol that PERIOD reads is still in the ring. -/
theorem Streaming.tbufRead_dmaPos (hn : n < (r + 2) * bankSyms s.cfg) : u.tbufRead u.dmaPos = frameSymbol s n := by
  have hread : r * bankSyms s.cfg + u.encK ≤ n := by
    have hbegun := (Nat.mul_le_mul_right (bankSyms s.cfg) h.begun).trans (Nat.div_mul_le_self n _)
    cases hb : u.encBusy with
    | true =>
      have hk := h.encK
      rw [hb, Bool.toNat_true, Nat.succ_mul] at hbegun
      omega
    | false =>
      rw [h.idle hb]
      simpa [hb] using hbegun
  rw [h.dmaPos]
  refine h.stream.ring n (by omega) ?_
  rw [tbufSyms, Nat.add_mul]
  omega

/-- PERIOD raises a bank's notification after its last symbol (R200, R201). -/
theorem Streaming.pending_period (hc : s.cfg.WellFormed) (he : exec .period u = .next v) (b : Bank) :
    v.pending b = true ↔ (bankSyms s.cfg ∣ n + 1 ∧ bankOf (n / bankSyms s.cfg) = b) ∨ u.pending b = true := by
  obtain ⟨-, rfl⟩ := execPeriod_next he
  have hpos := bankSyms_pos hc
  have hlast : u.dmaPos = bankBase s.cfg b + (bankSyms s.cfg - 1) ↔
      bankSyms s.cfg ∣ n + 1 ∧ bankOf (n / bankSyms s.cfg) = b := by
    rw [h.dmaPos_eq, bankBase_add_inj (Nat.mod_lt n hpos) (by omega), mod_bankSyms_eq_last_iff hc]
  rw [← hlast]
  cases b with
  | bank0 => simp [State.pending, htPendAfter, h.htEn, h.stream.cfg, bankBase, Bank.index]
  | bank1 =>
    have hend : tbufSyms s.cfg - 1 = bankSyms s.cfg + (bankSyms s.cfg - 1) := by rw [tbufSyms]; omega
    simp [State.pending, tcPendAfter, h.tcEn, h.stream.cfg, bankBase, Bank.index, hend]

/-- PERIOD under DEADLINE emits the frame's next symbol (R200, R311). -/
theorem Streaming.period (hc : s.cfg.WellFormed) (hd : deadlineMet .period u) (he : exec .period u = .next v) :
    Streaming s v (n + 1) r := by
  have hlt := h.lt_ahead hc hd
  have hsym := h.tbufRead_dmaPos hlt
  have hpend := h.pending_period hc he
  have hbegun := h.begun
  obtain ⟨-, rfl⟩ := execPeriod_next he
  exact { h with
    stream := { h.stream with }
    wire := by simp [h.wire, hsym, List.range_succ]
    dmaPos := by simp [h.dmaPos, h.stream.cfg]
    begun := hbegun.trans (Nat.div_le_div_right (Nat.le_succ n))
    ahead := hlt
    pending := fun b => by
      rw [hpend, h.pending]
      by_cases hlast : bankSyms s.cfg ∣ n + 1
      · rw [Nat.succ_div_of_dvd hlast]
        constructor
        · rintro (⟨-, hb⟩ | ⟨j, hj, hlt, hb⟩)
          · exact ⟨_, hbegun, Nat.lt_succ_self _, hb⟩
          · exact ⟨j, hj, Nat.lt_succ_of_lt hlt, hb⟩
        · rintro ⟨j, hj, hlt, hb⟩
          rcases Nat.lt_succ_iff_lt_or_eq.mp hlt with hlt | rfl
          · exact .inr ⟨j, hj, hlt, hb⟩
          · exact .inl ⟨hlast, hb⟩
      · simp [Nat.succ_div_of_not_dvd hlast, hlast] }

/-- Of two notifications that wait the older is taken, and a refill begins (R170, R171, R262). -/
theorem Streaming.bank_of_oldest (hc : s.cfg.WellFormed) {b : Bank} (hb : u.encBusy = false) (hp : u.pending b = true)
    (ho : ∀ b', b' ≠ b → u.dmaPos = bankBase u.cfg b' → u.pending b' = false) : b = bankOf r := by
  obtain ⟨j, hj, hlt, rfl⟩ := (h.pending_iff hb b).mp hp
  have hle := h.halfCycles_le hc
  by_contra hne
  have hjr : j ≠ r := fun he => hne (congrArg bankOf he)
  obtain ⟨-, hpos⟩ := h.dmaPos_of_caughtUp (by omega)
  have hold := (h.pending_iff hb (bankOf r)).mpr ⟨r, Nat.le_refl r, by omega, rfl⟩
  simp [ho _ (Ne.symm hne) hpos] at hold

/-- The refill of the oldest notification's bank begins (R170, R171). -/
theorem Streaming.beginRefill (hc : s.cfg.WellFormed) {b : Bank} {ht tc : Bool} (hb : u.encBusy = false)
    (hp : u.pending b = true) (ho : ∀ b', b' ≠ b → u.dmaPos = bankBase u.cfg b' → u.pending b' = false)
    (hv : v = { u with htPend := ht, tcPend := tc, encBusy := true, encBank := b, encK := 0 })
    (hpend : ∀ b', v.pending b' = true ↔ u.pending b' = true ∧ b' ≠ b) : Streaming s v n r := by
  obtain rfl := h.bank_of_oldest hc hb hp ho
  obtain ⟨j, hj, hlt, -⟩ := (h.pending_iff hb _).mp hp
  have hbegun : r + 1 ≤ n / bankSyms s.cfg := by omega
  have hle := h.halfCycles_le hc
  have hk := h.idle hb
  subst hv
  exact { h with
    stream := by
      have hw := h.stream
      rw [hk] at hw
      exact { hw with }
    bank := fun _ => rfl
    encK := bankSyms_pos hc
    idle := fun h => nomatch h
    begun := hbegun
    pending := fun b' => by
      rw [hpend, h.pending_iff hb]
      constructor
      · rintro ⟨⟨i, hi, hlt, rfl⟩, hne⟩
        have hir : i ≠ r := fun he => hne (congrArg bankOf he)
        exact ⟨i, Nat.lt_of_le_of_ne hi (Ne.symm hir), hlt, rfl⟩
      · rintro ⟨i, hi, hlt, rfl⟩
        obtain rfl : i = r + 1 := Nat.le_antisymm (by omega) hi
        exact ⟨⟨_, by omega, hlt, rfl⟩, bankOf_succ_ne r⟩ }

/-- ESYM writes the stream's next symbol, and the bank's last ends a refill (R172). -/
theorem Streaming.esym (he : exec .esym u = .next v) : ∃ r', Streaming s v n r' := by
  have hk := h.encK
  obtain ⟨hb, hcases⟩ := execEsym_next he
  have hplace : bankBase s.cfg u.encBank + u.encK = ((r + 2) * bankSyms s.cfg + u.encK) % tbufSyms s.cfg := by
    rw [mul_bankSyms_add_mod hk, bankOf_add_two, h.bank hb]
  have hmod : u.encK % 24 = ((r + 2) * bankSyms s.cfg + u.encK) % 24 := by
    rw [bankSyms, Nat.mul_left_comm, Nat.mul_add_mod]
  have hstream := h.stream.succ hmod hplace
  rw [h.stream.cfg] at hcases
  rcases hcases with ⟨hlast, rfl⟩ | ⟨hmore, rfl⟩
  · have hwritten : (r + 2) * bankSyms s.cfg + u.encK + 1 = (r + 1 + 2) * bankSyms s.cfg := by
      rw [Nat.add_right_comm r 1 2, Nat.succ_mul (r + 2)]
      omega
    rw [hwritten] at hstream
    have hbegun := h.begun
    have hpend := h.pending
    rw [hb] at hbegun hpend
    exact ⟨r + 1, { h with
      stream := { hstream with }
      bank := fun h => nomatch h
      encK := Nat.zero_lt_of_lt hk
      idle := fun _ => rfl
      begun := hbegun
      ahead := h.ahead.trans (Nat.mul_le_mul_right _ (by omega))
      pending := hpend }⟩
  · exact ⟨r, { h with
      stream := { hstream with }
      encK := show u.encK + 1 < bankSyms s.cfg by omega
      idle := fun h => nomatch hb.symm.trans h }⟩

/-- Each operation of the run keeps the engine behind the encoder. -/
theorem Streaming.step (hc : s.cfg.WellFormed) {i : Instr} (hd : deadlineMet i u) (ho : servedInOrder i u)
    (hn : noColorChange i u) (he : exec i u = .next v) :
    ∃ r', Streaming s v (n + if i = .period then 1 else 0) r' := by
  cases i with
  | reset => exact absurd rfl hn.1
  | start =>
    obtain ⟨-, rfl⟩ | ⟨hr, -⟩ := execStart_next he
    · exact ⟨r, h⟩
    · simp [h.run] at hr
  | wrcolor i w => exact absurd rfl (hn.2 i w)
  | rdcolor i =>
    obtain ⟨-, rfl⟩ := execRdcolor_next he
    exact ⟨r, h.aside ..⟩
  | rdsnap =>
    obtain rfl := execRdsnap_next he
    exact ⟨r, h.aside ..⟩
  | captick => obtain ⟨-, rfl⟩ | ⟨-, rfl⟩ := execCaptick_next he <;> exact ⟨r, h.aside ..⟩
  | edge =>
    obtain rfl := execEdge_next he
    exact ⟨r, h.aside ..⟩
  | tedge =>
    obtain ⟨-, rfl⟩ := execTedge_next he
    exact ⟨r, h.aside ..⟩
  | tovf =>
    obtain ⟨-, rfl⟩ := execTovf_next he
    exact ⟨r, h.aside ..⟩
  | period => exact ⟨r, h.period hc hd he⟩
  | eht =>
    obtain ⟨hp, hb, hv⟩ := execEht_next he
    refine ⟨r, h.beginRefill hc (b := .bank0) hb hp (fun b' hne hpos => ?_) hv fun b' => ?_⟩
    · cases b' with
      | bank0 => exact absurd rfl hne
      | bank1 => exact ho.2 rfl (by simp [hpos, bankBase, Bank.index])
    · subst hv
      cases b' <;> simp [State.pending]
  | etc =>
    obtain ⟨hp, hb, hv⟩ := execEtc_next he
    refine ⟨r, h.beginRefill hc (b := .bank1) hb hp (fun b' hne hpos => ?_) hv fun b' => ?_⟩
    · cases b' with
      | bank0 => exact ho.1 rfl (by simpa [hpos, h.stream.cfg, bankBase, Bank.index] using bankSyms_pos hc)
      | bank1 => exact absurd rfl hne
    · subst hv
      cases b' <;> simp [State.pending]
  | esym => exact h.esym he

end

/-- A run that meets DEADLINE, the service order and keeps the colours keeps the engine behind the encoder. -/
theorem runOps_streaming {s u t : State} {ops : List Instr} {n r : Nat} (hc : s.cfg.WellFormed) (h : Streaming s u n r)
    (he : runOps ops u = .next t) (hd : runMeets deadlineMet ops u) (ho : runMeets servedInOrder ops u)
    (hn : runMeets noColorChange ops u) : ∃ r', Streaming s t (n + ops.count .period) r' := by
  induction ops generalizing u n r with
  | nil =>
    cases he
    exact ⟨r, h⟩
  | cons i rest ih =>
    obtain ⟨v, hv, hrest⟩ := runOps_cons_next he
    obtain ⟨hdi, hdr⟩ := (runMeets_cons hv).mp hd
    obtain ⟨hoi, hor⟩ := (runMeets_cons hv).mp ho
    obtain ⟨hni, hnr⟩ := (runMeets_cons hv).mp hn
    obtain ⟨r', h'⟩ := h.step hc hdi hoi hni hv
    obtain ⟨r'', h''⟩ := ih h' hrest hdr hor hnr
    refine ⟨r'', ?_⟩
    rw [List.count_cons, Nat.add_comm (rest.count _), ← Nat.add_assoc]
    simpa using h''

/-! ### The obligation -/

/-- Settles O50: START's prefill puts the engine two banks behind the encoder, and the run keeps it inside the ring. -/
theorem framesRepeatUnderDeadline : Obligations.FramesRepeatUnderDeadline := by
  intro s t ops hc hr he hd ho hn
  obtain ⟨u, hu, hrest⟩ := runOps_cons_next he
  rw [runMeets_cons hu] at hd ho hn
  obtain ⟨r, h⟩ := runOps_streaming hc (.start hc hr hu) hrest hd.2 ho.2 hn.2
  simpa using h.wire

end Sys2Proof.Machine
end

section
/-! PROOFS. Without the service order the frame may break (42_encoder R176, 60_exceptions R262): a run of the smallest
strip, written out and evaluated. -/

namespace Sys2Proof.Machine

/-! ### Conditions along a run -/

/-- A condition holds along a run iff it holds of each operation with the state it begins in. -/
theorem runMeets_iff (cond : Instr → State → Prop) (ops : List Instr) (s : State) :
    runMeets cond ops s ↔ ∀ e ∈ runSteps ops s, cond e.1 e.2 := by
  induction ops generalizing s with
  | nil => simp [runMeets, runSteps]
  | cons i rest ih =>
    simp only [runMeets, runSteps, List.forall_mem_cons]
    refine and_congr_right fun _ => ?_
    split <;> simp [ih]

/-- The operations of a run's steps are those of its list. -/
theorem fst_mem_of_mem_runSteps {e : Instr × State} {ops : List Instr} {s : State} (h : e ∈ runSteps ops s) :
    e.1 ∈ ops := by
  induction ops generalizing s with
  | nil => cases h
  | cons i rest ih =>
    rw [runSteps, List.mem_cons] at h
    rcases h with rfl | h
    · exact .head _
    · split at h
      · exact .tail _ (ih h)
      · cases h
      · cases h

/-! ### The swapped run -/

/-- One LED, white, and one gap slot: two banks of one slot each. -/
def twoSlotStrip : State :=
  { State.resetWith { Config.reference with gapSlots := 1 } with color := [(0, 0x00FFFFFF)] }

/-- A full cycle without service, then ETC before the older EHT, each with its refill, then one bit period more: it reads
the gap slot from bank 0. -/
def swappedRun : List Instr :=
  List.replicate 48 .period ++ .etc :: List.replicate 24 .esym ++ .eht :: List.replicate 24 .esym ++ [.period]

/-- The swapped run completes, and its last symbol is the gap's. -/
theorem exists_swappedRun_next :
    ∃ t, runOps (.start :: swappedRun) twoSlotStrip = .next t ∧ t.wire[48]? = some gapSym := by
  have hlast : (match runOps (.start :: swappedRun) twoSlotStrip with
      | .next t => t.wire[48]?
      | .fault _ => none
      | .refused _ => none) = some gapSym := by decide +kernel
  split at hlast
  · rename_i t ht
    exact ⟨t, ht, hlast⟩
  · cases hlast
  · cases hlast

theorem swappedRun_deadlineMet : runMeets deadlineMet (.start :: swappedRun) twoSlotStrip := by
  rw [runMeets_iff]
  unfold deadlineMet
  decide +kernel

theorem swappedRun_noLostNotification : runMeets noLostNotification (.start :: swappedRun) twoSlotStrip := by
  rw [runMeets_iff]
  unfold noLostNotification
  decide +kernel

theorem swappedRun_not_servedInOrder : ¬runMeets servedInOrder (.start :: swappedRun) twoSlotStrip := by
  rw [runMeets_iff]
  unfold servedInOrder
  decide +kernel

theorem swappedRun_noColorChange : runMeets noColorChange (.start :: swappedRun) twoSlotStrip := by
  rw [runMeets_iff]
  intro e he
  have hmem : e.1 = .start ∨ e.1 = .period ∨ e.1 = .etc ∨ e.1 = .esym ∨ e.1 = .eht ∨ e.1 = .esym ∨ e.1 = .period := by
    simpa [swappedRun] using fst_mem_of_mem_runSteps he
  rcases hmem with h | h | h | h | h | h | h <;> simp [noColorChange, h]

/-! ### The obligation -/

/-- Settles O51, by the swapped run: the frame's first symbol is due again, and the gap's is emitted. -/
theorem swappedServiceBreaksTheFrame : Obligations.SwappedServiceBreaksTheFrame := by
  obtain ⟨t, ht, hwire⟩ := exists_swappedRun_next
  refine ⟨twoSlotStrip, t, swappedRun, by decide, rfl, ht, swappedRun_deadlineMet, swappedRun_noLostNotification,
    swappedRun_noColorChange, swappedRun_not_servedInOrder, fun hframe => ?_⟩
  have hperiods : swappedRun.count .period = 49 := by decide
  have hdue : frameSymbol twoSlotStrip 48 = gapSym := by
    simpa [hframe, hperiods, twoSlotStrip] using hwire
  exact absurd hdue (by decide)

end Sys2Proof.Machine
end

section
/-! PROOFS. The transfer engine (43_transfer R200 to R205): one bit period, bit periods in a row, the waveform of an
emitted symbol, and which operations start, stop and move the engine. -/

namespace Sys2Proof.Machine

/-! ### One bit period -/

/-- What moves only DMA_POS, the two notifications, the output stream and the line keeps every other element (R200). -/
theorem keeps_of_engine_moved {s t : State} {ht tc : Bool} {pos : Nat} {wire : List Symbol} {line : Level}
    (h : t = { s with htPend := ht, tcPend := tc, dmaPos := pos, wire := wire, line := line }) :
    keepsInputs s t ∧ keepsCapture s t ∧ keepsEstimator s t ∧ keepsColor s t ∧ keepsTbuf s t ∧ keepsEncoder s t ∧
      keepsResponses s t := by
  subst h
  exact ⟨⟨rfl, rfl, rfl⟩, ⟨rfl, rfl, rfl, rfl⟩, ⟨rfl, rfl, rfl, rfl⟩, fun _ => State.colorRead_congr rfl rfl _,
    fun _ => State.tbufRead_congr rfl rfl _, ⟨rfl, rfl, rfl, rfl, rfl⟩, rfl⟩

/-- The half-consumed notification waits after a bit period iff it waited or was armed after bank 0's last symbol. -/
theorem htPendAfter_iff {s : State} :
    htPendAfter s = true ↔ s.htPend = true ∨ s.dmaPos = bankSyms s.cfg - 1 ∧ s.htEn = true := by
  simp [htPendAfter, or_comm]

/-- The full-consumed notification waits after a bit period iff it waited or was armed after bank 1's last symbol. -/
theorem tcPendAfter_iff {s : State} :
    tcPendAfter s = true ↔ s.tcPend = true ∨ s.dmaPos = tbufSyms s.cfg - 1 ∧ s.tcEn = true := by
  simp [tcPendAfter, or_comm]

/-! ### Bit periods in a row -/

/-- What `n` bit periods of an armed engine put out: the next `n` positions' symbols, and each notification whose
position is among them (R201). -/
structure PeriodsOutput (s t : State) (n : Nat) : Prop extends PeriodsRun s t n where
  tcEn : t.tcEn = s.tcEn
  tbuf : keepsTbuf s t
  wire : t.wire = s.wire ++ (List.range n).map (fun i => s.tbufRead ((s.dmaPos + i) % tbufSyms s.cfg))
  htPend : t.htPend = true ↔ s.htPend = true ∨ ∃ i < n, (s.dmaPos + i) % tbufSyms s.cfg = bankSyms s.cfg - 1
  tcPend : t.tcPend = true ↔ s.tcPend = true ∨ ∃ i < n, (s.dmaPos + i) % tbufSyms s.cfg = tbufSyms s.cfg - 1

/-- One bit period more (R200). -/
theorem PeriodsOutput.succ {s t : State} {n : Nat} (h : PeriodsOutput s t n) (hht : s.htEn = true)
    (htc : s.tcEn = true) : ∃ u, exec .period t = .next u ∧ PeriodsOutput s u (n + 1) := by
  obtain ⟨u, hu, -, -, h1⟩ := exec_period h.run
  obtain ⟨-, rfl⟩ := execPeriod_next hu
  refine ⟨_, hu, { h.toPeriodsRun.trans h1 with tcEn := h.tcEn, tbuf := ?_, wire := ?_, htPend := ?_, tcPend := ?_ }⟩
  · exact fun q => (State.tbufRead_congr rfl rfl q).trans (h.tbuf q)
  · simp [h.wire, h.tbuf _, h.dmaPos, List.range_succ]
  · simp only [htPendAfter_iff, h.htPend, h.dmaPos, h.cfg, h.htEn, hht, and_true, or_assoc, Nat.exists_lt_succ_right]
  · simp only [tcPendAfter_iff, h.tcPend, h.dmaPos, h.cfg, h.tcEn, htc, and_true, or_assoc, Nat.exists_lt_succ_right]

/-- An armed engine's bit periods, by induction on their number (R201). -/
theorem runOps_periodsOutput {s : State} (hr : s.run = true) (hht : s.htEn = true) (htc : s.tcEn = true)
    (hp : s.dmaPos < tbufSyms s.cfg) (n : Nat) :
    ∃ t, runOps (List.replicate n .period) s = .next t ∧ PeriodsOutput s t n := by
  induction n with
  | zero =>
    exact ⟨s, rfl, { cfg := rfl, run := hr, htEn := rfl, encBusy := rfl, encBank := rfl, tcEn := rfl
                     dmaPos := (Nat.mod_eq_of_lt hp).symm, tbuf := fun _ => rfl, wire := by simp, htPend := by simp
                     tcPend := by simp }⟩
  | succ n ih =>
    obtain ⟨t, ht, hn⟩ := ih
    obtain ⟨u, hu, hsucc⟩ := hn.succ hht htc
    rw [List.replicate_succ', runOps_append ht, runOps_cons hu]
    exact ⟨u, rfl, hsucc⟩

/-- A full turn from `q` around a ring of `m` positions passes each position once. -/
theorem existsUnique_add_mod_eq {m q p : Nat} (hq : q < m) (hp : p < m) : ∃! i, i < m ∧ (q + i) % m = p := by
  have hpos := Nat.zero_lt_of_lt hp
  refine ⟨(p + (m - q)) % m, ⟨Nat.mod_lt _ hpos, ?_⟩, fun i ⟨hi, hip⟩ => ?_⟩
  · have hturn : q + (p + (m - q)) = p + m := by omega
    rw [Nat.add_mod_mod, hturn, Nat.add_mod_right, Nat.mod_eq_of_lt hp]
  · have hturn : q + i + (m - q) = i + m := by omega
    rw [← hip, Nat.mod_add_mod, hturn, Nat.add_mod_right, Nat.mod_eq_of_lt hi]

/-! ### The waveform -/

/-- Tick `k` of a period is high iff the pulse still lasts (R203). -/
theorem waveform_getElem? (c : Config) (sym : Symbol) {k : Nat} (hk : k < c.periodTicks) :
    (waveform c sym)[k]? = some (if k < min sym.toNat c.periodTicks then Level.high else .low) := by
  simp only [waveform, List.getElem?_append, List.length_replicate, List.getElem?_replicate]
  split
  · rfl
  · rw [if_pos (by omega)]

/-- A waveform lasts one period (R203). -/
theorem waveform_length (c : Config) (sym : Symbol) : (waveform c sym).length = c.periodTicks := by
  simp [waveform]

/-- A waveform's pulse is as long as its symbol says, within the period (R203). -/
theorem waveform_count_high (c : Config) (sym : Symbol) :
    (waveform c sym).count .high = min sym.toNat c.periodTicks := by
  simp [waveform, List.count_replicate]

/-- The line ends a period at the level of its last tick (R203). -/
theorem waveform_getLast? {c : Config} (hP : 0 < c.periodTicks) (sym : Symbol) :
    (waveform c sym).getLast? = some (levelAfter c sym) := by
  have hlast : c.periodTicks - 1 < min sym.toNat c.periodTicks ↔ c.periodTicks ≤ sym.toNat := by omega
  simp only [List.getLast?_eq_getElem?, waveform_length, waveform_getElem? c sym (Nat.sub_one_lt_of_lt hP), hlast,
    levelAfter]

/-! ### Who moves RUN and DMA_POS -/

/-- No operation moves DMA_POS but PERIOD, START and RESET (R41, R205). -/
theorem exec_keeps_dmaPos {i : Instr} {s t : State} (h : exec i s = .next t) (hp : i ≠ .period) (hs : i ≠ .start)
    (hr : i ≠ .reset) : t.dmaPos = s.dmaPos := by
  cases i with
  | reset => exact absurd rfl hr
  | start => exact absurd rfl hs
  | period => exact absurd rfl hp
  | wrcolor i w =>
    obtain ⟨-, rfl⟩ := execWrcolor_next h
    rfl
  | rdcolor i =>
    obtain ⟨-, rfl⟩ := execRdcolor_next h
    rfl
  | rdsnap => rw [execRdsnap_next h, State.respond_dmaPos]
  | captick => rcases execCaptick_next h with ⟨-, rfl⟩ | ⟨-, rfl⟩ <;> rfl
  | edge => rw [execEdge_next h]
  | tedge =>
    obtain ⟨-, rfl⟩ := execTedge_next h
    rfl
  | tovf =>
    obtain ⟨-, rfl⟩ := execTovf_next h
    rfl
  | eht =>
    obtain ⟨-, -, rfl⟩ := execEht_next h
    rfl
  | etc =>
    obtain ⟨-, -, rfl⟩ := execEtc_next h
    rfl
  | esym => obtain ⟨-, ⟨-, rfl⟩ | ⟨-, rfl⟩⟩ := execEsym_next h <;> rfl

/-- No operation moves RUN but START and RESET (R38). -/
theorem exec_keeps_run {i : Instr} {s t : State} (h : exec i s = .next t) (hi : i ≠ .start) (hr : i ≠ .reset) :
    t.run = s.run := by
  obtain ⟨-, -, -, -, -, -, hwriters⟩ := exec_pipeline_writers h hr
  obtain ⟨hrun, -, -⟩ := hwriters hi
  exact hrun

/-- A running engine goes on running under every operation but RESET; START leaves it running too (R205). -/
theorem exec_keeps_running {i : Instr} {s t : State} (h : exec i s = .next t) (hr : i ≠ .reset) (hs : s.run = true) :
    t.run = true := by
  rcases eq_or_ne i .start with rfl | hi
  · rcases execStart_next h with ⟨-, rfl⟩ | ⟨-, rfl⟩
    · exact hs
    · rfl
  · exact (exec_keeps_run h hi hr).trans hs

/-- A stopped engine stays so under every operation but START; RESET leaves it stopped too (R38). -/
theorem exec_keeps_stopped {i : Instr} {s t : State} (h : exec i s = .next t) (hi : i ≠ .start) (hs : s.run = false) :
    t.run = false := by
  rcases eq_or_ne i .reset with rfl | hr
  · rw [execReset_next h]
    rfl
  · exact (exec_keeps_run h hi hr).trans hs

/-! ### The obligations -/

/-- Settles O34, by induction on the number of bit periods, and by a turn around the transfer buffer. -/
theorem periodsRunCircularly : Obligations.PeriodsRunCircularly := by
  intro s hc hr hht htc hp
  have hlt := bankSyms_lt_tbufSyms hc
  refine ⟨fun n => ?_, existsUnique_add_mod_eq hp (by omega), existsUnique_add_mod_eq hp (by omega)⟩
  obtain ⟨t, ht, h⟩ := runOps_periodsOutput hr hht htc hp n
  exact ⟨t, ht, h.dmaPos, h.wire, h.htPend, h.tcPend⟩

/-- Settles O35, tick by tick, with the duty values below the period. -/
theorem waveformOfASymbol : Obligations.WaveformOfASymbol := by
  intro c sym hc
  obtain ⟨h0, h01, h1, -⟩ := Config.dutyOk_of_wellFormed hc
  refine ⟨waveform_length c sym, fun k hk => waveform_getElem? c sym hk, waveform_getLast? (by omega) sym, ?_, ?_, ?_⟩
  · simp [waveform, gapSym]
  · simpa [waveform_count_high, bitSym_toNat hc] using (h01.trans h1).le
  · simpa [waveform_count_high, bitSym_toNat hc] using h1.le

/-- Settles O48: what each operation keeps, read backwards. -/
theorem onlyResetStopsTheEngine : Obligations.OnlyResetStopsTheEngine := by
  intro i s t h
  refine ⟨fun hs ht => ?_, fun hs ht => ?_, fun hne => ?_⟩ <;> by_contra hi
  · exact absurd (exec_keeps_running h hi hs) (by simp [ht])
  · exact absurd (exec_keeps_stopped h hi hs) (by simp [ht])
  · obtain ⟨hp, hst, hr⟩ : i ≠ .period ∧ i ≠ .start ∧ i ≠ .reset := by simpa only [not_or] using hi
    exact hne (exec_keeps_dmaPos h hp hst hr)

/-- Settles O33, by PERIOD's one effect and its guard. -/
theorem periodEmitsOneSymbol : Obligations.PeriodEmitsOneSymbol := by
  refine ⟨rfl, fun s => ⟨fun h => exec_instrOf_of_not_enabled (g := .period) h, fun hr => ?_⟩⟩
  obtain ⟨t, ht, hwire, hpend, hrun⟩ := exec_period hr
  obtain ⟨-, heq⟩ := execPeriod_next ht
  obtain ⟨hin, hcap, hest, hcol, htbuf, henc, hresp⟩ := keeps_of_engine_moved heq
  subst heq
  exact ⟨_, ht, hwire, fun h => htPendAfter_iff.mpr (.inr h), fun h => by simp [htPendAfter, h],
    fun h => tcPendAfter_iff.mpr (.inr h), fun h => by simp [tcPendAfter, h], hrun.dmaPos, rfl, rfl, rfl,
    hin, hcap, hest, hcol, htbuf, henc, hresp⟩

end Sys2Proof.Machine
end

section
/-! PROOFS. RESET and the host's operations (44_host R230 to R234): what each does, what it leaves alone, and the frame's
two banks that START encodes. -/

namespace Sys2Proof.Machine

/-! ### The effect and the frame of a colour write and of a response -/

/-- WRCOLOR of an index of the strip writes its word (R232). -/
theorem exec_wrcolor {i : BitVec 24} {s : State} (h : i.toNat < s.cfg.ledCount) (w : ColorWord) :
    exec (.wrcolor i w) s = .next (s.colorWrite i.toNat w) := if_neg (Nat.not_le.mpr h)

/-- RDCOLOR of an index of the strip returns its word (R233). -/
theorem exec_rdcolor {i : BitVec 24} {s : State} (h : i.toNat < s.cfg.ledCount) :
    exec (.rdcolor i) s = .next (s.respond (.color (s.colorRead i.toNat))) := if_neg (Nat.not_le.mpr h)

/-- A colour write keeps every element but the colour buffer (R232). -/
theorem keeps_of_colorWrite (s : State) (i : Nat) (w : ColorWord) :
    keepsInputs s (s.colorWrite i w) ∧ keepsCapture s (s.colorWrite i w) ∧ keepsEstimator s (s.colorWrite i w) ∧
      keepsTbuf s (s.colorWrite i w) ∧ keepsEncoder s (s.colorWrite i w) ∧ keepsEngine s (s.colorWrite i w) ∧
      keepsWire s (s.colorWrite i w) ∧ keepsResponses s (s.colorWrite i w) :=
  ⟨⟨rfl, rfl, rfl⟩, ⟨rfl, rfl, rfl, rfl⟩, ⟨rfl, rfl, rfl, rfl⟩, State.tbufRead_congr rfl rfl, ⟨rfl, rfl, rfl, rfl, rfl⟩,
    ⟨rfl, rfl, rfl, rfl, rfl, rfl⟩, ⟨rfl, rfl⟩, rfl⟩

/-- A response keeps every element of the block (R83, R84). -/
theorem keeps_of_respond (s : State) (r : Response) :
    keepsInputs s (s.respond r) ∧ keepsCapture s (s.respond r) ∧ keepsEstimator s (s.respond r) ∧
      keepsColor s (s.respond r) ∧ keepsTbuf s (s.respond r) ∧ keepsEncoder s (s.respond r) ∧
      keepsEngine s (s.respond r) ∧ keepsWire s (s.respond r) :=
  ⟨⟨rfl, rfl, rfl⟩, ⟨rfl, rfl, rfl, rfl⟩, ⟨rfl, rfl, rfl, rfl⟩, State.colorRead_congr rfl rfl, State.tbufRead_congr rfl rfl,
    ⟨rfl, rfl, rfl, rfl, rfl⟩, ⟨rfl, rfl, rfl, rfl, rfl, rfl⟩, ⟨rfl, rfl⟩⟩

/-! ### The fields of the snapshot -/

/-- RDSNAP's response has FREQ in [31:0] (R83). -/
theorem snapshot_freq (s : State) : (snapshot s).extractLsb' 0 32 = s.freq := by
  rw [snapshot, BitVec.extractLsb'_append_eq_right]

/-- RDSNAP's response has PHASE in [47:32] (R83). -/
theorem snapshot_phase (s : State) : (snapshot s).extractLsb' 32 16 = BitVec.ofNat 16 s.phase := by
  rw [snapshot, BitVec.extractLsb'_append_eq_of_le (by decide), BitVec.extractLsb'_append_eq_right]

/-- RDSNAP's response has OVF in [48] (R83). -/
theorem snapshot_ovf (s : State) : (snapshot s).getLsbD 48 = s.ovf := by
  simp only [snapshot, BitVec.getLsbD_append, BitVec.getLsbD_ofBool]
  simp

/-- RDSNAP's response has zeros above OVF (R83). -/
theorem snapshot_unused (s : State) : (snapshot s).extractLsb' 49 15 = 0 := by
  rw [snapshot, BitVec.extractLsb'_append_eq_of_le (by decide), BitVec.extractLsb'_append_eq_of_le (by decide),
    BitVec.extractLsb'_append_eq_left]
  rfl

/-! ### The words that the host reads after RESET -/

/-- After RESET the response shows a dropout at phase 0 (R49, R83). -/
theorem snapshot_resetWith (c : Config) : snapshot (State.resetWith c) = 0x0001000000000000 := by
  simp [snapshot]

/-- After RESET only OVF is set in STATUS (R45, R49). -/
theorem status_resetWith (c : Config) : (State.resetWith c).status = 0x001 := by
  have hbank : (Bank.bank0 == .bank1) = false := rfl
  simp [State.status, hbank]

/-! ### START -/

/-- The prefill leaves in ENC_WORD the colour of the last colour slot it passed (R172, R231). -/
theorem prefill_encWord {s : State} {m : Nat} (h : 0 < slots s.cfg) (hm : m < 2 * bankSlots s.cfg)
    (hs : m % slots s.cfg < s.cfg.ledCount)
    (hgap : ∀ m', m < m' → m' < 2 * bankSlots s.cfg → s.cfg.ledCount ≤ m' % slots s.cfg) :
    (prefill s).encWord = (s.colorRead (m % slots s.cfg)).setWidth 24 := by
  have half := prefillHalf_encoded s h
  have full := prefill_encoded s h
  have hsyms : bankSyms s.cfg = 24 * bankSlots s.cfg := rfl
  have hslot0 : ∀ j, slotAt s.cfg 0 j = j % slots s.cfg := fun j => by rw [slotAt, Nat.zero_add]
  have hslot1 : ∀ j, slotAt (prefillHalf s).cfg (bankSlots s.cfg % slots s.cfg) j =
      (bankSlots s.cfg + j) % slots s.cfg := fun j => by rw [slotAt, half.cfg, Nat.mod_add_mod]
  by_cases hbank : m < bankSlots s.cfg
  · rw [full.wordKept fun j hj => ?_, half.word m (by omega), hslot0]
    · rwa [hslot0]
    · intro j hj hlt
      rw [hslot0]
      exact hgap j hj (by omega)
    · rw [hslot1, half.cfg]
      exact hgap _ (by omega) (by omega)
  · obtain ⟨j, rfl⟩ := Nat.exists_eq_add_of_le (Nat.le_of_not_lt hbank)
    rw [full.word j (by omega), hslot1, State.colorRead_congr half.color half.draws]
    · rwa [hslot1, half.cfg]
    · intro j' hj hlt
      rw [hslot1, half.cfg]
      exact hgap _ (by omega) (by omega)

/-- The last colour slot of the prefill's `2B`: of one frame the last LED, and slot 0 where `2B` is one slot more (R231). -/
theorem prefill_encWord_eq {s : State} (hc : s.cfg.WellFormed) :
    (prefill s).encWord =
      (s.colorRead (if slots s.cfg % 2 = 0 then s.cfg.ledCount - 1 else 0)).setWidth 24 := by
  obtain ⟨hN, -, -, hG⟩ := Config.stripOk_of_wellFormed hc
  have hslots : slots s.cfg = s.cfg.ledCount + s.cfg.gapSlots := rfl
  have hbank : bankSlots s.cfg = (slots s.cfg + 1) / 2 := rfl
  split
  · have hmod : ∀ m < slots s.cfg, m % slots s.cfg = m := fun m => Nat.mod_eq_of_lt
    rw [prefill_encWord (m := s.cfg.ledCount - 1), hmod _ (by omega)]
    · omega
    · omega
    · rw [hmod _ (by omega)]
      omega
    · intro m hm hlt
      rw [hmod _ (by omega)]
      omega
  · rw [prefill_encWord (m := slots s.cfg), Nat.mod_self]
    · omega
    · omega
    · rwa [Nat.mod_self]
    · omega

/-- The prefill gives every position of the transfer buffer the symbol of its slot (R231). -/
theorem prefill_tbufRead (s : State) {q : Nat} (h : q < tbufSyms s.cfg) :
    (prefill s).tbufRead q = slotSymbol s (q / 24 % slots s.cfg) (q % 24) := by
  have hsyms : tbufSyms s.cfg = 2 * bankSyms s.cfg := rfl
  have hring := (prefill_streamWritten s).ring q (by omega) (by omega)
  rwa [Nat.mod_eq_of_lt h] at hring

/-- The prefill writes inside the transfer buffer only (R231). -/
theorem prefill_tbufRead_outside {s : State} (hs : 0 < slots s.cfg) {q : Nat} (h : tbufSyms s.cfg ≤ q) :
    (prefill s).tbufRead q = s.tbufRead q := by
  have half := prefillHalf_encoded s hs
  have hsyms : tbufSyms s.cfg = 2 * bankSyms s.cfg := rfl
  have hfull := (prefill_encoded s hs).other q (.inr ?_)
  have hhalf := half.other q (.inr ?_)
  · rw [State.tbufRead, hfull, hhalf, prefill_draws, State.tbufRead]
  all_goals simp only [half.cfg, bankBase, Bank.index]; omega

/-- The prefill ends at the slot after its `2B` (R231). -/
theorem prefill_encCursor (s : State) : (prefill s).encCursor = 2 * bankSlots s.cfg % slots s.cfg := by
  rw [(prefill_streamWritten s).cursor, bankSyms, show 2 * (24 * bankSlots s.cfg) / 24 = 2 * bankSlots s.cfg by omega]

/-- START of a running engine is ignored (R231). -/
theorem exec_start_of_running {s : State} (h : s.run = true) : exec .start s = .next s := if_pos h

/-! ### The obligations -/

/-- Settles O38, the symbols by the frame that the prefill writes, ENC_WORD by the last colour slot it passes. -/
theorem startPrefillsAndRuns : Obligations.StartPrefillsAndRuns := by
  refine ⟨rfl, fun s hc => ⟨exec_start_of_running, fun hr => ?_⟩⟩
  obtain ⟨t, ht, -⟩ := exec_start_of_stopped hr
  obtain ⟨hr', -⟩ | ⟨-, rfl⟩ := execStart_next ht
  · simp [hr] at hr'
  have hslots : 0 < slots s.cfg := Nat.zero_lt_of_lt (sizes_of_wellFormed hc).1
  refine ⟨_, ht, fun q => prefill_tbufRead s, fun q => prefill_tbufRead_outside hslots, prefill_encCursor s, rfl, rfl,
    (prefill_encoded s hslots).bank, prefill_encWord_eq hc, rfl, rfl, rfl, rfl, rfl, rfl, ?_, ?_, ?_,
    State.colorRead_congr (prefill_color s) (prefill_draws s), ?_, prefill_responses s⟩
  · exact ⟨prefill_cfg s, prefill_trace s, prefill_draws s⟩
  · exact ⟨prefill_capCnt s, prefill_capLatch s, prefill_edgePend s, prefill_ovfPend s⟩
  · exact ⟨prefill_hist s, prefill_phase s, prefill_freq s, prefill_ovf s⟩
  · exact ⟨prefill_wire s, prefill_line s⟩

/-- Settles O39, by the colour write's effect and frame. -/
theorem wrcolorWritesOneWord : Obligations.WrcolorWritesOneWord := by
  intro i w
  refine ⟨Laws.WordFields.wrcolor i w, fun s => ⟨exec_fault_of_le_hostIndex rfl, fun hi => ?_⟩⟩
  exact ⟨_, exec_wrcolor hi w, s.colorRead_colorWrite_same _ _, fun j => s.colorRead_colorWrite_other w,
    keeps_of_colorWrite s _ w⟩

/-- Settles O40, by the response's frame and a read after a write. -/
theorem rdcolorReturnsTheWord : Obligations.RdcolorReturnsTheWord := by
  intro i
  refine ⟨Laws.WordFields.rdcolor i, fun s => ⟨exec_fault_of_le_hostIndex rfl, fun hi => ⟨?_, fun w => ?_⟩⟩⟩
  · exact ⟨_, exec_rdcolor hi, rfl, keeps_of_respond s _⟩
  · have hread : exec (.rdcolor i) (s.colorWrite i.toNat w) = .next ((s.colorWrite i.toNat w).respond (.color w)) := by
      rw [exec_rdcolor (s := s.colorWrite i.toNat w) hi, State.colorRead_colorWrite_same]
    exact ⟨_, (runOps_cons (exec_wrcolor hi w)).trans (runOps_cons hread), rfl⟩

/-- Settles O37: the elements one by one, then the two words that collect some of them. -/
theorem resetGivesEveryElementItsValue : Obligations.ResetGivesEveryElementItsValue := by
  refine ⟨rfl, fun s => ⟨_, rfl, rfl, rfl, rfl, rfl, List.length_replicate, fun _ => List.eq_of_mem_replicate, rfl,
    rfl, rfl, rfl, rfl, rfl, rfl, rfl, rfl, rfl, rfl, rfl, rfl, rfl, rfl, rfl, rfl, rfl, rfl, status_resetWith s.cfg, _,
    rfl, ?_⟩⟩
  exact congrArg (fun r => s.responses ++ [.snap r]) (snapshot_resetWith s.cfg)

/-- Settles O41, field by field; a phase in range fits its 16 bits. -/
theorem rdsnapReturnsTheSnapshot : Obligations.RdsnapReturnsTheSnapshot := by
  refine ⟨rfl, fun s => ⟨_, snapshot s, rfl, rfl, snapshot_freq s, fun hc hp => ?_, snapshot_ovf s, snapshot_unused s,
    keeps_of_respond s _⟩⟩
  obtain ⟨-, hM, -⟩ := Config.historyOk_of_wellFormed hc
  rw [snapshot_phase, BitVec.toNat_ofNat, Nat.mod_eq_of_lt (hp.trans_le hM)]

end Sys2Proof.Machine
end

section
/-! PROOFS. Pending events (60_exceptions R261 to R264): the two tachometer events serviced in either order, and the two
notifications serviced one at a time. -/

namespace Sys2Proof.Machine

/-- The first TEDGE after an overflow is TEDGE with frequency 0 (R130 step 5). -/
theorem exec_tedge_of_ovf {s : State} (hedge : s.edgePend = true) (hovf : s.ovf = true) :
    exec .tedge s = .next { s with
      edgePend := false
      hist := pushHist s.hist s.capLatch
      phase := resolvePhase s.cfg (pushHist s.hist s.capLatch) s.phase
      freq := 0
      ovf := false } := by
  rw [exec_tedge hedge, freqAfterEdge_of_ovf hovf]

/-! ### The obligations -/

/-- Settles O24: of what one service writes, the other reads OVF only, and history and phase do not depend on it. TEDGE
after TOVF finds OVF set; TOVF after TEDGE zeroes the frequency and sets OVF again. -/
theorem tachometerEventsInEitherOrder : Obligations.TachometerEventsInEitherOrder := by
  intro s hedge hovf
  refine ⟨_, _, (runOps_cons (exec_tovf hovf)).trans (runOps_cons (exec_tedge_of_ovf ?edge rfl)),
    (runOps_cons (exec_tedge hedge)).trans (runOps_cons (exec_tovf ?ovf)), rfl, rfl, rfl, rfl, rfl, rfl, rfl, rfl, rfl,
    rfl⟩
  case edge => exact hedge
  case ovf => exact hovf

/-- Settles O31: a refill in progress closes both guards, each service clears its own bit only, and PERIOD clears
neither. -/
theorem notificationsAreServicedOneAtATime : Obligations.NotificationsAreServicedOneAtATime := by
  refine ⟨fun s hb => ⟨?_, ?_⟩, fun s hb hht htc => ?_, fun s hr hht htc => ?_⟩
  · exact exec_instrOf_of_not_enabled (g := .eht) (by simp [State.enabled, hb])
  · exact exec_instrOf_of_not_enabled (g := .etc) (by simp [State.enabled, hb])
  · obtain ⟨t, ht, -⟩ := exec_guarded (g := .eht) (s := s) (by simp [State.enabled, hht, hb])
    obtain ⟨u, hu, -⟩ := exec_guarded (g := .etc) (s := s) (by simp [State.enabled, htc, hb])
    obtain ⟨-, -, rfl⟩ := execEht_next ht
    obtain ⟨-, -, rfl⟩ := execEtc_next hu
    exact ⟨_, _, ht, rfl, htc, hu, rfl, hht⟩
  · obtain ⟨t, ht, -⟩ := exec_period hr
    obtain ⟨-, rfl⟩ := execPeriod_next ht
    exact ⟨_, ht, htPendAfter_iff.mpr (.inl hht), tcPendAfter_iff.mpr (.inl htc)⟩

end Sys2Proof.Machine
end

section
/-! PROOFS. A repopulation (70_reset_and_hazards R314, 42_encoder R172): ESYMs in a row, from a bank's first symbol on,
waiting on no agent. -/

namespace Sys2Proof.Machine

/-! ### ESYMs in a row -/

/-- `t` is `s` after `n` ESYMs of a refill that `s` begins: `n` symbols of the bank are encoded, and only the encoder
and the transfer buffer have moved. -/
structure Refilled (s t : State) (n : Nat) : Prop where
  encoded : Encoded s s.encBank s.encCursor t n
  moved : ∃ busy k cursor word tbuf,
    t = { s with encBusy := busy, encK := k, encCursor := cursor, encWord := word, tbuf := tbuf }

theorem Refilled.zero {s : State} (h : s.encCursor < slots s.cfg) : Refilled s s 0 :=
  ⟨.zero rfl rfl rfl rfl rfl rfl rfl h, _, _, _, _, _, rfl⟩

/-- The next ESYM of a refill completes: it encodes one symbol more, and ENC_K and ENC_BUSY tell whether it was the
bank's last (R172). -/
theorem Refilled.succ {s t : State} {n : Nat} (h : Refilled s t n) (hb : t.encBusy = true) (hk : t.encK = n) :
    ∃ u, exec .esym t = .next u ∧ Refilled s u (n + 1) ∧
      (n = bankSyms s.cfg - 1 → u.encK = 0 ∧ u.encBusy = false) ∧
      (n ≠ bankSyms s.cfg - 1 → u.encK = n + 1 ∧ u.encBusy = true) := by
  obtain ⟨u, hu, -⟩ := exec_guarded (g := .esym) hb
  obtain ⟨k, busy, rfl, hlast, hmore⟩ := execEsym_next_encodeAt hu
  rw [hk, h.encoded.cfg] at hlast hmore
  refine ⟨_, hu, ⟨h.encoded.succ rfl rfl rfl rfl (hk ▸ rfl) (hk ▸ rfl) (hk ▸ rfl), ?_⟩, hlast, hmore⟩
  obtain ⟨_, _, _, _, _, rfl⟩ := h.moved
  exact ⟨_, _, _, _, _, rfl⟩

/-- Short of a whole bank, ESYMs complete and the refill goes on. -/
theorem runOps_esyms {s : State} (hb : s.encBusy = true) (hk : s.encK = 0) (hs : s.encCursor < slots s.cfg) {n : Nat}
    (hn : n < bankSyms s.cfg) :
    ∃ t, runOps (List.replicate n .esym) s = .next t ∧ Refilled s t n ∧ t.encK = n ∧ t.encBusy = true := by
  induction n with
  | zero => exact ⟨s, rfl, .zero hs, hk, hb⟩
  | succ n ih =>
    obtain ⟨t, ht, h, hkt, hbt⟩ := ih (by omega)
    obtain ⟨u, hu, hsucc, -, hmore⟩ := h.succ hbt hkt
    rw [List.replicate_succ', runOps_append ht, runOps_cons hu]
    exact ⟨u, rfl, hsucc, hmore (by omega)⟩

/-- A whole bank of ESYMs completes, and with it the refill (R172). -/
theorem runOps_esyms_bank {s : State} (hc : s.cfg.WellFormed) (hb : s.encBusy = true) (hk : s.encK = 0)
    (hs : s.encCursor < slots s.cfg) :
    ∃ t, runOps (List.replicate (bankSyms s.cfg) .esym) s = .next t ∧ Refilled s t (bankSyms s.cfg) ∧ t.encK = 0 ∧
      t.encBusy = false := by
  obtain ⟨m, hm⟩ := Nat.exists_eq_add_one.mpr (bankSyms_pos hc)
  obtain ⟨t, ht, h, hkt, hbt⟩ := runOps_esyms hb hk hs (n := m) (by omega)
  obtain ⟨u, hu, hsucc, hlast, -⟩ := h.succ hbt hkt
  rw [hm, List.replicate_succ', runOps_append ht, runOps_cons hu]
  exact ⟨u, rfl, hsucc, hlast (by omega)⟩

/-! ### The obligation -/

/-- Settles O32: symbol by symbol, by the encoder's law for a run of symbols. -/
theorem refillFillsTheBank : Obligations.RefillFillsTheBank := by
  intro s hc hb hk hs
  refine ⟨fun n hn => ?_, ?_⟩
  · obtain ⟨t, ht, -, hkt, hbt⟩ := runOps_esyms hb hk hs hn
    exact ⟨t, ht, hbt, hkt⟩
  · obtain ⟨t, ht, ⟨henc, busy, k, cursor, word, tbuf, heq⟩, hkt, hbt⟩ := runOps_esyms_bank hc hb hk hs
    obtain ⟨hin, hcap, hest, hcol, hwire, hresp⟩ := keeps_of_encoder_moved heq
    refine ⟨t, ht, hbt, hkt, henc.bank, ?_, fun q hq => ?_, fun q hq => ?_, hin, hcap, hest, hcol, ?_, hwire, hresp⟩
    · rw [henc.cursor, slotAt, bankSyms, Nat.mul_div_cancel_left _ (by decide)]
    · rw [State.tbufRead, henc.done q hq]
      rfl
    · rw [State.tbufRead, henc.other q hq, henc.draws, State.tbufRead]
    · subst heq
      exact ⟨rfl, rfl, rfl, rfl, rfl, rfl⟩

end Sys2Proof.Machine
end

section
/-! PROOFS. The tachometer under SERVICE (70_reset_and_hazards R312): along a run, what waited before and what arrives
is what is serviced and what waits after, in order. -/

namespace Sys2Proof.Machine

/-! ### A run's events, operation by operation -/

@[simp] theorem runSteps_singleton (i : Instr) (s : State) : runSteps [i] s = [(i, s)] := by
  rw [runSteps]
  split <;> rfl

@[simp] theorem capturedDurations_singleton (i : Instr) (s : State) :
    capturedDurations [i] s = if i = .edge then [s.capCnt] else [] := by
  rw [capturedDurations, runSteps_singleton]
  by_cases h : i = .edge <;> simp [h]

@[simp] theorem servicedDurations_singleton (i : Instr) (s : State) :
    servicedDurations [i] s = if i = .tedge then [s.capLatch] else [] := by
  rw [servicedDurations, runSteps_singleton]
  by_cases h : i = .tedge <;> simp [h]

@[simp] theorem arrivals_singleton (i : Instr) (s : State) :
    arrivals [i] s =
      if i = .edge then [.tedge] else if i = .captick ∧ captureWraps s = true then [.tovf] else [] := by
  rw [arrivals, runSteps_singleton]
  by_cases h : i = .edge
  · simp [h]
  · by_cases hw : i = .captick ∧ captureWraps s = true <;> simp [h, hw]

@[simp] theorem services_singleton (i : Instr) (s : State) :
    services [i] s = if i = .tedge then [.tedge] else if i = .tovf then [.tovf] else [] := by
  rw [services, runSteps_singleton]
  by_cases h : i = .tedge
  · simp [h]
  · by_cases ho : i = .tovf <;> simp [h, ho]

/-- The steps of a run are its first operation's and the rest's. -/
theorem runSteps_cons_eq_append {i : Instr} {rest : List Instr} {s u : State} (h : exec i s = .next u) :
    runSteps (i :: rest) s = runSteps [i] s ++ runSteps rest u := by
  rw [runSteps_cons h, runSteps_singleton, List.singleton_append]

/-- The duration that waits to be serviced, if one does. -/
def waitingDuration (s : State) : List Nat := if s.edgePend then [s.capLatch] else []

/-- A run from `s` to `t` drops no event: each waiting or arriving one is serviced or waits on, in order, and at most
one waits at the end. -/
structure DropsNoEvent (ops : List Instr) (s t : State) : Prop where
  durations : waitingDuration s ++ capturedDurations ops s = servicedDurations ops s ++ waitingDuration t
  order : waiting s ++ arrivals ops s = services ops s ++ waiting t
  single : t.edgePend = true → t.ovfPend = false

theorem DropsNoEvent.nil {s : State} (h : s.edgePend = true → s.ovfPend = false) : DropsNoEvent [] s s :=
  ⟨List.append_nil _, List.append_nil _, h⟩

/-- What one run leaves waiting the next takes up, so the events of the two balance. -/
theorem append_balance {α : Type} {before between after in1 in2 out1 out2 : List α}
    (h1 : before ++ in1 = out1 ++ between) (h2 : between ++ in2 = out2 ++ after) :
    before ++ (in1 ++ in2) = (out1 ++ out2) ++ after := by
  rw [← List.append_assoc, h1, List.append_assoc, h2, List.append_assoc]

/-- One operation, then a run that drops no event. -/
theorem DropsNoEvent.cons {i : Instr} {rest : List Instr} {s u t : State} (he : exec i s = .next u)
    (h1 : DropsNoEvent [i] s u) (h2 : DropsNoEvent rest u t) : DropsNoEvent (i :: rest) s t where
  durations := by
    rw [capturedDurations, servicedDurations, runSteps_cons_eq_append he, List.filterMap_append, List.filterMap_append]
    exact append_balance h1.durations h2.durations
  order := by
    rw [arrivals, services, runSteps_cons_eq_append he, List.filterMap_append, List.filterMap_append]
    exact append_balance h1.order h2.order
  single := h2.single

/-- Under SERVICE an event arrives only where nothing waits, and a service takes the one that waits (R110, R111, R130,
R131). -/
theorem exec_dropsNoEvent {i : Instr} {s t : State} (h : exec i s = .next t) (hr : i ≠ .reset) (hs : serviceMet i s)
    (h1 : s.edgePend = true → s.ovfPend = false) : DropsNoEvent [i] s t := by
  rcases exec_tachometer h hr with ⟨rfl, hw, rfl⟩ | ⟨rfl, hw, rfl⟩ | ⟨rfl, rfl⟩ | ⟨rfl, hp, rfl⟩ | ⟨rfl, hp, rfl⟩ |
    ⟨htick, hedge, htedge, htovf, -, ⟨-, hlatch, hep, hop⟩, -⟩
  · obtain ⟨he, ho⟩ := hs (.inr ⟨rfl, hw⟩)
    constructor <;> simp [waiting, waitingDuration, hw, he, ho]
  · exact ⟨by simp [waitingDuration], by simp [waiting, hw], h1⟩
  · obtain ⟨he, ho⟩ := hs (.inl rfl)
    constructor <;> simp [waiting, waitingDuration, he, ho]
  · constructor <;> simp [waiting, waitingDuration, hp, h1 hp]
  · have he : s.edgePend = false := by
      by_contra he
      simp [h1 (by simpa using he)] at hp
    constructor <;> simp [waiting, waitingDuration, hp, he]
  · exact ⟨by simp [waitingDuration, *], by simp [waiting, *], by rwa [hep, hop]⟩

/-- A run under SERVICE without RESET drops no event. -/
theorem runOps_dropsNoEvent {ops : List Instr} {s t : State} (h : runOps ops s = .next t) (hr : .reset ∉ ops)
    (hs : runMeets serviceMet ops s) (h1 : s.edgePend = true → s.ovfPend = false) : DropsNoEvent ops s t := by
  induction ops generalizing s with
  | nil =>
    cases h
    exact .nil h1
  | cons i rest ih =>
    obtain ⟨u, hu, hrest⟩ := runOps_cons_next h
    obtain ⟨hri, hrr⟩ := List.ne_and_not_mem_of_not_mem_cons hr
    obtain ⟨hsi, hsr⟩ := (runMeets_cons hu).mp hs
    have hstep := exec_dropsNoEvent hu hri.symm hsi h1
    exact .cons hu hstep (ih hrest hrr hsr hstep.single)

/-! ### The obligation -/

/-- Settles O54: the run's balance, from a state where nothing waits. -/
theorem serviceDropsNoEvent : Obligations.ServiceDropsNoEvent := by
  intro s t ops he ho hr h hs
  obtain ⟨hdur, hord, -⟩ := runOps_dropsNoEvent h hr hs fun _ => ho
  exact ⟨by simpa [waitingDuration, he] using hdur, by simpa [waiting, he, ho] using hord⟩

end Sys2Proof.Machine
end

section
/-! PROOFS. Runs under weak fairness (70_reset_and_hazards R320). An agent step stays enabled until it is taken or a
RESET happens; and a count that some operation raises again and again, and no other moves, passes every bound. -/

namespace Sys2Proof.Machine

/-! ### Fairness and counts that grow -/

/-- An agent step that only itself or a RESET can disable is taken, unless a RESET happens. -/
theorem FairRun.taken_or_reset {op : Nat → Instr} {st : Nat → State} (r : FairRun op st) {g : Guarded} {n : Nat}
    (hn : (st n).enabled g = true)
    (step : ∀ i s t, s.enabled g = true → i ≠ instrOf g → i ≠ .reset → exec i s = .next t → t.enabled g = true) :
    ∃ m, n ≤ m ∧ (op m = instrOf g ∨ op m = .reset) := by
  obtain hall | hend := r.keeps_until (p := fun s => s.enabled g = true) (ends := fun i => i = instrOf g ∨ i = .reset)
    hn fun i s t hs hi he => step i s t hs (fun h => hi (.inl h)) (fun h => hi (.inr h)) he
  · obtain ⟨m, hm, ht⟩ := r.fair g n hall
    exact ⟨m, hm, .inl ht⟩
  · exact hend

/-- A count that goes up by one at each `i` and moves at no other operation passes every bound, if `i` happens again and
again. -/
theorem exists_le_of_counts {op : Nat → Instr} {a : Nat → Nat} {i : Instr} {n : Nat}
    (counts : ∀ m, n ≤ m → a (m + 1) = a m + if op m = i then 1 else 0)
    (again : ∀ m, n ≤ m → ∃ k, m ≤ k ∧ op k = i) (bound : Nat) : ∃ m, n ≤ m ∧ bound ≤ a m := by
  induction bound with
  | zero => exact ⟨n, Nat.le_refl n, Nat.zero_le _⟩
  | succ b ih =>
    obtain ⟨m, hm, hb⟩ := ih
    obtain ⟨k, hk, hop⟩ := again m hm
    have hmono : a m ≤ a k :=
      Nat.le_induction (Nat.le_refl _) (fun j hj hle => hle.trans (by simp [counts j (hm.trans hj)])) k hk
    have hrise : a (k + 1) = a k + 1 := by simp [counts k (hm.trans hk), hop]
    exact ⟨k + 1, by omega, by omega⟩

/-! ### The tachometer's waiting events -/

/-- A waiting edge waits on until a TEDGE or a RESET (R23). -/
theorem exec_keeps_edgePend {i : Instr} {s t : State} (h : exec i s = .next t) (hr : i ≠ .reset) (hi : i ≠ .tedge)
    (hs : s.edgePend = true) : t.edgePend = true := by
  rcases eq_or_ne i .edge with rfl | he
  · rw [execEdge_next h]
  · obtain ⟨-, -, -, hedge, -⟩ := exec_tachometer_writers h hr
    exact (hedge he hi).trans hs

/-- Where no edge waits, no TEDGE happens (R130). -/
theorem ne_tedge_of_no_edge {i : Instr} {s t : State} (h : exec i s = .next t) (hs : s.edgePend = false) :
    i ≠ .tedge := by
  rintro rfl
  obtain ⟨hp, -⟩ := execTedge_next h
  simp [hs] at hp

/-- Settles O55: only a TEDGE or a RESET ends the wait of an edge, only a TOVF or a RESET that of an overflow. -/
theorem fairRunsServiceTheTachometer : Obligations.FairRunsServiceTheTachometer := by
  intro op st n r
  refine ⟨fun hn => ?_, fun hn => ?_⟩
  · exact r.taken_or_reset (g := .tedge) hn fun i s t hs hi hr he =>
      exec_keeps_edgePend he hr hi hs
  · exact r.taken_or_reset (g := .tovf) hn fun i s t hs hi hr he =>
      (exec_ovfPend_iff he hr hi).mpr (.inl hs)

/-! ### A refill -/

/-- A refill that does not end goes one symbol on at an ESYM, stays at its place at any other operation, and keeps
inside the bank (R33, R35). -/
theorem exec_encK_of_busy {i : Instr} {s t : State} (h : exec i s = .next t) (hs : s.encBusy = true)
    (ht : t.encBusy = true) (hk : s.encK < bankSyms s.cfg) :
    t.encK = s.encK + (if i = .esym then 1 else 0) ∧ t.encK < bankSyms s.cfg := by
  cases i with
  | reset => simp [execReset_next h] at ht
  | start =>
    rcases execStart_next h with ⟨-, rfl⟩ | ⟨-, rfl⟩
    · simp [hk]
    · simp at ht
  | eht =>
    obtain ⟨-, hb, -⟩ := execEht_next h
    simp [hb] at hs
  | etc =>
    obtain ⟨-, hb, -⟩ := execEtc_next h
    simp [hb] at hs
  | esym =>
    rcases execEsym_next h with ⟨-, ⟨-, rfl⟩ | ⟨hk', rfl⟩⟩
    · simp at ht
    · simp only [if_true, true_and]
      omega
  | _ =>
    obtain ⟨-, -, -, henc, -⟩ := exec_pipeline_writers h nofun
    obtain ⟨-, -, hkeep, -⟩ := henc nofun nofun nofun nofun
    simp [hkeep, hk]

/-- Settles O56: a refill without end would take ESYMs without end, and each moves ENC_K on below the bank's size. -/
theorem fairRunsEndEveryRefill : Obligations.FairRunsEndEveryRefill := by
  intro op st n r hk
  by_contra hnever
  have hbusy : ∀ m, n ≤ m → (st m).encBusy = true := fun m hm => by
    by_contra hb
    exact hnever ⟨m, hm, by simpa using hb⟩
  have hplace : ∀ m, n ≤ m → (st m).cfg = (st n).cfg ∧ (st m).encK < bankSyms (st n).cfg := by
    intro m hm
    induction m, hm using Nat.le_induction with
    | base => exact ⟨rfl, hk⟩
    | succ m hm ih =>
      obtain ⟨hcfg, hlt⟩ := ih
      obtain ⟨-, hnext⟩ := exec_encK_of_busy (r.runs m) (hbusy m hm) (hbusy _ (by omega)) (hcfg ▸ hlt)
      exact ⟨(exec_keeps_cfg_trace (r.runs m)).1.trans hcfg, hcfg ▸ hnext⟩
  have hmoves : ∀ m, n ≤ m → (st (m + 1)).encK = (st m).encK + (if op m = .esym then 1 else 0) := fun m hm => by
    obtain ⟨hcfg, hlt⟩ := hplace m hm
    exact (exec_encK_of_busy (r.runs m) (hbusy m hm) (hbusy _ (by omega)) (hcfg ▸ hlt)).1
  have hagain : ∀ m, n ≤ m → ∃ k, m ≤ k ∧ op k = .esym := fun m hm =>
    r.fair .esym m fun j hj => hbusy j (hm.trans hj)
  obtain ⟨m, hm, hfull⟩ := exists_le_of_counts (a := fun m => (st m).encK) hmoves hagain (bankSyms (st n).cfg)
  exact absurd (hplace m hm).2 (Nat.not_lt.mpr hfull)

/-! ### The output stream -/

/-- A PERIOD adds one symbol to the output stream, and no other operation moves it (R43). -/
theorem exec_wire_length {i : Instr} {s t : State} (h : exec i s = .next t) :
    t.wire.length = s.wire.length + (if i = .period then 1 else 0) := by
  obtain ⟨hgrow, hkeep⟩ := wireGrowsAtPeriodsOnly i s t h
  split
  · rw [hgrow ‹_›, List.length_append, List.length_singleton]
  · rw [hkeep ‹_›, Nat.add_zero]

/-- Settles O57: the engine runs on, so PERIODs keep coming, and each adds a symbol. -/
theorem fairRunsEmitForever : Obligations.FairRunsEmitForever := by
  intro op st n r hrun hreset
  have hon : ∀ m, n ≤ m → (st m).run = true :=
    r.keeps (p := fun s => s.run = true) hrun fun m hm t hs he => exec_keeps_running he (hreset m hm) hs
  refine exists_le_of_counts (a := fun m => (st m).wire.length) (fun m _ => exec_wire_length (r.runs m)) fun m hm => ?_
  obtain ⟨k, hk, hop⟩ := r.periods m (hon m hm)
  exact ⟨k, hk, hop.resolve_right (hreset k (hm.trans hk))⟩

/-! ### A dropout -/

section
variable {op : Nat → Instr} {st : Nat → State} {n : Nat}

/-- With no EDGE any more, from some time on no edge waits. -/
theorem FairRun.edges_run_out (r : FairRun op st) (hno : ∀ m, n ≤ m → op m ≠ .edge ∧ op m ≠ .reset) :
    ∃ m, n ≤ m ∧ ∀ k, m ≤ k → (st k).edgePend = false := by
  have hclear : ∃ m, n ≤ m ∧ (st m).edgePend = false := by
    cases hn : (st n).edgePend with
    | false => exact ⟨n, Nat.le_refl n, hn⟩
    | true =>
      obtain ⟨m, hm, hop⟩ := (fairRunsServiceTheTachometer op st n r).1 hn
      have hrun := r.runs m
      rw [hop.resolve_right (hno m hm).2] at hrun
      obtain ⟨-, hnext⟩ := execTedge_next hrun
      exact ⟨m + 1, by omega, by rw [hnext]⟩
  obtain ⟨m, hm, hclear⟩ := hclear
  refine ⟨m, hm, r.keeps (p := fun s => s.edgePend = false) hclear fun k hk t hs he => ?_⟩
  obtain ⟨hedge, hreset⟩ := hno k (hm.trans hk)
  obtain ⟨-, -, -, hkeep, -⟩ := exec_tachometer_writers he hreset
  exact (hkeep hedge (ne_tedge_of_no_edge he hs)).trans hs

/-- Between EDGEs and RESETs the configuration stays and the count keeps its range (R21). -/
theorem FairRun.capCnt_lt (r : FairRun op st) (hcnt : (st n).capCnt < (st n).cfg.capPeriod)
    (hno : ∀ m, n ≤ m → op m ≠ .edge ∧ op m ≠ .reset) :
    ∀ m, n ≤ m → (st m).cfg = (st n).cfg ∧ (st m).capCnt < (st n).cfg.capPeriod :=
  r.keeps (p := fun s => s.cfg = (st n).cfg ∧ s.capCnt < (st n).cfg.capPeriod) ⟨rfl, hcnt⟩ fun m hm t hs he => by
    obtain ⟨hcfg, hlt⟩ := hs
    obtain ⟨hedge, hreset⟩ := hno m hm
    have htick := exec_ticksRun he hreset hedge (hcfg ▸ hlt)
    exact ⟨htick.cfg.trans hcfg, hcfg ▸ htick.range⟩

/-- With no EDGE any more, the counter wraps: otherwise the CAPTICKs would pass every count (R110, R112). -/
theorem FairRun.exists_wrap (r : FairRun op st) (hcnt : (st n).capCnt < (st n).cfg.capPeriod)
    (hno : ∀ m, n ≤ m → op m ≠ .edge ∧ op m ≠ .reset) :
    ∃ m, n ≤ m ∧ op m = .captick ∧ captureWraps (st m) = true := by
  have hrange := r.capCnt_lt hcnt hno
  by_contra hnever
  have hcounts : ∀ m, n ≤ m → (st (m + 1)).capCnt = (st m).capCnt + (if op m = .captick then 1 else 0) := fun m hm => by
    obtain ⟨hcfg, hlt⟩ := hrange m hm
    obtain ⟨hedge, hreset⟩ := hno m hm
    have hnowrap : ¬(op m = .captick ∧ captureWraps (st m) = true) := fun h => hnever ⟨m, hm, h⟩
    simpa [hnowrap] using (exec_ticksRun (r.runs m) hreset hedge (hcfg ▸ hlt)).balance
  obtain ⟨m, hm, hfull⟩ :=
    exists_le_of_counts (a := fun m => (st m).capCnt) hcounts (fun m _ => r.ticks m) (st n).cfg.capPeriod
  exact absurd (hrange m hm).2 (Nat.not_lt.mpr hfull)

end

/-- A reported dropout stays so under every operation but TEDGE and RESET (R131, R150). -/
theorem exec_keeps_dropout {i : Instr} {s t : State} (h : exec i s = .next t) (hr : i ≠ .reset) (hi : i ≠ .tedge)
    (hs : s.ovf = true ∧ s.freq = 0) : t.ovf = true ∧ t.freq = 0 := by
  rcases eq_or_ne i .tovf with rfl | ho
  · obtain ⟨-, rfl⟩ := execTovf_next h
    exact ⟨rfl, rfl⟩
  · obtain ⟨-, hfreq, -⟩ := exec_tachometer_writers h hr
    obtain ⟨hfreq, hovf⟩ := hfreq hi ho
    exact ⟨hovf.trans hs.1, hfreq.trans hs.2⟩

/-- Settles O58: once the last edge is serviced the counter wraps, the overflow's TOVF comes, and no TEDGE comes after
it. -/
theorem fairRunsReportADropout : Obligations.FairRunsReportADropout := by
  intro op st n r hcnt hno
  obtain ⟨a, ha, hclear⟩ := r.edges_run_out hno
  have hno' : ∀ m, a ≤ m → op m ≠ .edge ∧ op m ≠ .reset := fun m hm => hno m (ha.trans hm)
  obtain ⟨hcfg, hlt⟩ := r.capCnt_lt hcnt hno a ha
  obtain ⟨b, hb, htick, hwrap⟩ := r.exists_wrap (hcfg ▸ hlt) hno'
  have hpend : (st (b + 1)).ovfPend = true :=
    (exec_ovfPend_iff (r.runs b) (hno' b hb).2 (by simp [htick])).mpr (.inr ⟨htick, hwrap⟩)
  obtain ⟨c, hc, hop⟩ := (fairRunsServiceTheTachometer op st (b + 1) r).2 hpend
  have htovf : exec .tovf (st c) = .next (st (c + 1)) := hop.resolve_right (hno' c (by omega)).2 ▸ r.runs c
  obtain ⟨-, hnext⟩ := execTovf_next htovf
  refine ⟨c + 1, by omega, r.keeps (p := fun s => s.ovf = true ∧ s.freq = 0) (by simp [hnext]) fun m hm t hs he => ?_⟩
  exact exec_keeps_dropout he (hno' m (by omega)).2 (ne_tedge_of_no_edge he (hclear m (by omega))) hs

end Sys2Proof.Machine
end
